-- ==== Sys2Proof/Word.lean ====
section
/-! DEFINITION. The bit strings of the block: bytes, 7-bit device addresses, one shift (R8). -/

namespace Sys2Proof

/-- A register's or a transfer's 8 bits, bit 7 the most significant (R8). -/
abbrev Byte := BitVec 8

/-- A device address, a 7-bit value (R75, R94). -/
abbrev DeviceAddress := BitVec 7

end Sys2Proof
end

