-- ==== Sys2Proof/Config.lean ====
section
/-! DEFINITION. The parameters of R7: those the spec fixes, and those it leaves open as free values without a body. -/

namespace Sys2Proof

/-- `SCAN_FIRST` (R7, R183). -/
def Config.scanFirst : Nat := 8

/-- `SCAN_LAST`, inclusive (R7, R183). -/
def Config.scanLast : Nat := 119

/-- `T_SETTLE` in microseconds, waited by the host after each probe of SCAN (R7, R184). -/
def Config.settleMicroseconds : Nat := 100

/-- FREE VALUE (log entry 2). The level of Clock the environment presents in a cycle beyond the script
(R57, R124: the value is the environment's to give). -/
opaque Config.freeSclLevel : Nat → Bool

/-- FREE VALUE (log entry 2). The level of Data in a cycle beyond the script (R57, R124). -/
opaque Config.freeSdaLevel : Nat → Bool

/-- FREE VALUE (log entry 2). `dly_done` in a cycle beyond the script (R62, R125). -/
opaque Config.freeDlyDone : Nat → Bool

/-- FREE VALUE (log entry 9). Clock cycles in a microsecond: `F_CLK` is open (R7, R51). Used by the host's
DELAY_US alone (R99, R184). -/
opaque Config.cyclesPerMicrosecond : Nat

end Sys2Proof
end

