-- ==== Sys2Proof/Syntax.lean ====
section
/-! DEFINITION. The commands of the block, one constructor for each row of spec/opcode_table.json (R92). -/

namespace Sys2Proof

/-- A legal command (R90 to R93). -/
inductive Instr where
  /-- NOP, R140. -/
  | nop
  /-- BEGIN, R142. -/
  | begin
  /-- START, R144. -/
  | start
  /-- STOP, R146. -/
  | stop
  /-- WRITE, R160; its operand is in TXDATA (R93). -/
  | write
  /-- READ, R164; `ack` is the bit A: true acknowledges the byte (R91). -/
  | read (ack : Bool)
deriving DecidableEq, Repr

end Sys2Proof
end

