-- ==== Sys2Proof/WellFormed.lean ====
section
/-! DEFINITION. What makes a term well-formed: a command, a command byte, SCAN's operand. -/

namespace Sys2Proof

/-- Every command is well-formed: the only operand is the one bit A, and its type holds exactly the values the
encoding admits (R91). One arm a constructor, so a new command cannot slip past. -/
def Instr.wellFormed : Instr → Bool
  | .nop => true
  | .begin => true
  | .start => true
  | .stop => true
  | .write => true
  | .read _ => true

/-- Bits 7..4 of a command byte are 0 in both formats (R91, R95). -/
def highBitsClear (b : Byte) : Bool := b.extractLsb' 4 4 == 0#4

/-- The opcode of a command byte is one of 0 to 5 (R92, R95). -/
def opcodeAssigned (b : Byte) : Bool := (b.extractLsb' 0 3).toNat ≤ 5

/-- Bit 3 of a command byte is 1 in Format A only, that is with opcode 5 (R91, R95). -/
def bit3OnlyInRead (b : Byte) : Bool := !b.getLsbD 3 || b.extractLsb' 0 3 == 5#3

/-- The three checks of R95 together: the byte is one of the seven legal commands. -/
def commandByteWellFormed (b : Byte) : Bool := highBitsClear b && opcodeAssigned b && bit3OnlyInRead b

/-- SCAN's capacity is at least 1: the premise R182 asks a model to take (U11). The machine gives capacity 0 the
run of decision D18 all the same (log entry 10). -/
def scanCapacityWellFormed (cap : Nat) : Bool := 1 ≤ cap

end Sys2Proof
end

