-- ==== Sys2Proof/Decode.lean ====
section
/-! DEFINITION. The decoder of command bytes, total and rejecting by name (R92, R95, R96), and the encoder. -/

namespace Sys2Proof

/-- Why a byte is no command (R95). -/
inductive DecodeError where
  /-- One of bits 7..4 is set. -/
  | highBitSet
  /-- Bit 3 is set with an opcode other than READ's. -/
  | ackBitWithoutRead
  /-- Opcode 6 or 7. -/
  | opcodeUnassigned
  /-- There is no byte to decode. -/
  | noByte
deriving DecidableEq, Repr

/-- `OPC`, bits 2..0 (R91). -/
def opcodeField (b : Byte) : BitVec 3 := b.extractLsb' 0 3

/-- `A`, bit 3 (R91). -/
def ackField (b : Byte) : Bool := b.getLsbD 3

/-- The decoder R92 describes below its map, on one command byte. -/
def decodeByte (b : Byte) : Except DecodeError Instr :=
  if b.extractLsb' 4 4 ≠ 0#4 then .error .highBitSet
  else if opcodeField b = 5#3 then .ok (.read (ackField b))
  else if ackField b then .error .ackBitWithoutRead
  else if opcodeField b = 0#3 then .ok .nop
  else if opcodeField b = 1#3 then .ok .begin
  else if opcodeField b = 2#3 then .ok .start
  else if opcodeField b = 3#3 then .ok .stop
  else if opcodeField b = 4#3 then .ok .write
  else .error .opcodeUnassigned

/-- Decoding a run of bytes: every command is exactly one byte (R97); what follows it is returned. -/
def decodeBytes : List Byte → Except DecodeError (Instr × List Byte)
  | [] => .error .noByte
  | b :: rest =>
    match decodeByte b with
    | .ok i => .ok (i, rest)
    | .error e => .error e

/-- The command a byte stands for, none for the 249 illegal bytes (R96). -/
def decodeCommand (b : Byte) : Option Instr :=
  match decodeByte b with
  | .ok i => some i
  | .error _ => none

/-- The encoder, from the map of R92: bits 7..4 zero, A in bit 3, OPC in bits 2..0. -/
def encode : Instr → Byte
  | .nop => 0x00#8
  | .begin => 0x01#8
  | .start => 0x02#8
  | .stop => 0x03#8
  | .write => 0x04#8
  | .read a => 0#4 ++ BitVec.ofBool a ++ 5#3

/-- The byte an opcode-table word lays out: its low `nbits` bits, every bit above them 0. -/
def commandByteOfWord (nbits w : Nat) : Byte := BitVec.ofNat 8 (w % 2 ^ nbits)

/-- What the decoder reads from a word numbered as spec/opcode_table.json numbers it: a command is one byte,
bit 0 its least significant (R8, R90). -/
def decodeTableWord (nbits w : Nat) : Option Instr := decodeCommand (commandByteOfWord nbits w)

/-- The `mask` column of spec/opcode_table.json. -/
def tableMask : Instr → Byte
  | .nop => 0xFF#8
  | .begin => 0xFF#8
  | .start => 0xFF#8
  | .stop => 0xFF#8
  | .write => 0xFF#8
  | .read _ => 0xF7#8

/-- The `match` column of spec/opcode_table.json. -/
def tableMatch : Instr → Byte
  | .nop => 0x00#8
  | .begin => 0x01#8
  | .start => 0x02#8
  | .stop => 0x03#8
  | .write => 0x04#8
  | .read _ => 0x05#8

end Sys2Proof
end

