-- ==== Sys2Proof/Machine/State.lean ====
section
/-! DEFINITION. The state of the machine: the block's twelve elements (R20) and the agents around it (R11). -/

namespace Sys2Proof.Machine

/-- The two lines of the bus (R50, R60): Clock (SCL) and Data (SDA). -/
inductive Line where
  | clock
  | data
deriving DecidableEq, Repr

/-- A line as driven by this master: exactly two states, never driven high (R21 to R23). -/
inductive LineDrive where
  /-- State bit 0: not driven, the pull-up makes the line high. -/
  | released
  /-- State bit 1: pulled to logic 0. -/
  | drivenLow
deriving DecidableEq, Repr

/-- The state bit of a line, 1 for Driven-Low; also the value of its `*_drive_low` port (R56). -/
def LineDrive.bit : LineDrive → Bool
  | .released => false
  | .drivenLow => true

/-- The four host-visible registers (R64). -/
inductive Reg where
  | cmd
  | status
  | txdata
  | rxdata
deriving DecidableEq, Repr

/-- The address of a register (R64). -/
def Reg.address : Reg → BitVec 2
  | .cmd => 0#2
  | .status => 1#2
  | .txdata => 2#2
  | .rxdata => 3#2

/-- The block: exactly the twelve state elements of R20. -/
structure Block where
  /-- `SCL_DRV`, R21. -/
  sclDrv : LineDrive
  /-- `SDA_DRV`, R22. -/
  sdaDrv : LineDrive
  /-- `SHREG`, R24. -/
  shreg : Byte
  /-- `BITCNT`, R25. -/
  bitcnt : BitVec 4
  /-- `TXDATA`, R26. -/
  txdata : Byte
  /-- `RXDATA`, R27. -/
  rxdata : Byte
  /-- `ACK`, R28. -/
  ack : Bool
  /-- `ACKPOL`, R29. -/
  ackpol : Bool
  /-- `BUSY`, R30. -/
  busy : Bool
  /-- `OP`, R31. -/
  op : BitVec 3
  /-- `USTEP`, R32. -/
  ustep : BitVec 4
  /-- `CMDERR`, R33. -/
  cmderr : Bool
deriving DecidableEq, Repr

/-- The reset state of the block (R251). -/
def Block.reset : Block where
  sclDrv := .released
  sdaDrv := .released
  shreg := 0x00#8
  bitcnt := 0#4
  txdata := 0x00#8
  rxdata := 0x00#8
  ack := false
  ackpol := false
  busy := false
  op := 0#3
  ustep := 0#4
  cmderr := false

/-- What the world outside the host answers in one cycle: `rst` (R52), the two levels, true = high (R57), and
`dly_done` (R62). -/
structure EnvCycle where
  rst : Bool
  sclLevel : Bool
  sdaLevel : Bool
  dlyDone : Bool
deriving DecidableEq, Repr

/-- The inputs of one clock cycle (R200). -/
structure Input where
  rst : Bool
  regWe : Bool
  regAddr : Reg
  regWdata : Byte
  sclLevel : Bool
  sdaLevel : Bool
  dlyDone : Bool
deriving DecidableEq, Repr

/-- The outputs of one clock cycle (20_memory, section 2). -/
structure Outputs where
  regRdata : Byte
  busy : Bool
  sclDriveLow : Bool
  sdaDriveLow : Bool
  dlyReq : Bool
deriving DecidableEq, Repr

/-- The event alphabet of R131. -/
inductive Event where
  | drive (l : Line) (d : LineDrive)
  | sampleScl (v : Bool)
  | sampleSda (v : Bool)
  | waitBegin
  | waitEnd
deriving DecidableEq, Repr

/-- One statement of a host program: the host-port statements of R98, and the pseudo-instructions of R99 that are
loops or waits (the others expand into these, `Pseudo.expand`). Log entries 4 and 8. -/
inductive HostOp where
  /-- `WR r, v`: one cycle with `reg_we` = 1 (R53, R98). On CMD it issues a command. -/
  | wr (r : Reg) (v : Byte)
  /-- `RD r`: one cycle whose `reg_rdata` the host keeps (R54, R98). -/
  | rd (r : Reg)
  /-- A cycle without an access. -/
  | idle
  /-- WAITIDLE: read STATUS until bit 0 is 0 (R99, R100). -/
  | waitIdle
  /-- DELAY_US n: a wait of the host, not of the block (R99, R184). -/
  | delayUs (n : Nat)
  /-- The rest of a delay, in cycles. -/
  | idleFor (n : Nat)
  /-- `SCAN buf, cap` (R181): `buf` is the first cell of the array, `cap` the capacity. -/
  | scan (buf cap : Nat)
  /-- The loop of SCAN, about to probe address `a`. -/
  | scanProbe (buf cap a : Nat)
  /-- The loop of SCAN, about to test the acknowledgment of address `a`. -/
  | scanTest (buf cap a : Nat)
deriving DecidableEq, Repr

/-- The cells of host memory that hold SCAN's arrays (R181), numbered from 0: the cells something was stored in,
each with its value, in rising order (`HostMemory.wf`; log entry 19). -/
abbrev HostMemory := List (Nat × DeviceAddress)

/-- Host memory as SCAN uses it (R181): `count`, the variable it returns, and the cells its arrays lie in. -/
structure ScanMemory where
  count : Nat
  cells : HostMemory
deriving DecidableEq, Repr

/-- The host (R11 (2)): what it still has to do, the values its RD statements returned, the latest first, and
SCAN's memory. -/
structure HostAgent where
  prog : List HostOp
  reads : List Byte
  scan : ScanMemory
deriving DecidableEq, Repr

/-- The machine: the block, what the outside answers in the coming cycles, the host, the number of cycles so far
(it indexes the free values beyond the script) and the history of R131. -/
structure State where
  blk : Block
  env : List EnvCycle
  host : HostAgent
  cycle : Nat
  events : List Event
deriving DecidableEq, Repr

/-- Right after reset: the block as R251 says; no answer scripted, no statement given to the host, nothing read
(log entry 12). -/
def State.reset : State where
  blk := Block.reset
  env := []
  host := { prog := [], reads := [], scan := { count := 0, cells := [] } }
  cycle := 0
  events := []

/-- Faults. The hardware has none: no exception, no trap (R13, R230). So nothing raises one, and that is safe:
every state has a next state, as R209 says (the function is total). -/
inductive Fault where
deriving DecidableEq, Repr

/-- Refusals. -/
inductive Refusal where
  /-- Raised by an arm of `exec` whose command has no meaning yet; safe, the machine stops. No arm raises it. -/
  | notModelled (mnemonic : String)
deriving DecidableEq, Repr

/-- What the environment answers in the present cycle: the head of the script, or beyond it free levels and a
free `dly_done` with no reset (log entries 2 and 3). -/
def State.envNow (s : State) : EnvCycle :=
  s.env.headD
    { rst := false
      sclLevel := Config.freeSclLevel s.cycle
      sdaLevel := Config.freeSdaLevel s.cycle
      dlyDone := Config.freeDlyDone s.cycle }

end Sys2Proof.Machine
end

