-- ==== Sys2Proof/Machine/HostMemory.lean ====
section
/-! DEFINITION. The cells of host memory that hold SCAN's arrays (R181): reading one, writing one, the canonical
form. -/

namespace Sys2Proof.Machine

/-- The value of cell `c`; none where nothing has been stored (log entry 19). -/
def HostMemory.read (m : HostMemory) (c : Nat) : Option DeviceAddress := m.lookup c

/-- Storing `v` in cell `c`. -/
def HostMemory.write (c : Nat) (v : DeviceAddress) : HostMemory → HostMemory
  | [] => [(c, v)]
  | p :: m =>
    if c < p.1 then (c, v) :: p :: m
    else if c = p.1 then (c, v) :: m
    else p :: HostMemory.write c v m

/-- The canonical form: the listed cells strictly rise. A listed cell holds a value and an unlisted one holds none,
so equal memories are equal lists. -/
def HostMemory.wf (m : HostMemory) : Bool := decide ((m.map Prod.fst).Pairwise (· < ·))

end Sys2Proof.Machine
end

