-- ==== Sys2Proof/Machine/Ops.lean ====
section
/-! DEFINITION. The operations the micro-operations and the register port share: driving a line, the shifter,
finishing a command. The block takes no exception and returns from none (R230, R235, R236), so there is no
operation for either. -/

namespace Sys2Proof.Machine

/-- `scl_low()` and `scl_release()` (R121, R122): the new drive state of Clock. -/
def Block.driveScl (b : Block) (d : LineDrive) : Block := { b with sclDrv := d }

/-- `sda_low()` and `sda_release()` (R121, R122): the new drive state of Data. -/
def Block.driveSda (b : Block) (d : LineDrive) : Block := { b with sdaDrv := d }

/-- `sda_set(v)` drives low for 0 and releases for 1 (R123). -/
def driveForBit (v : Bool) : LineDrive := if v then .released else .drivenLow

/-- The shifter's step `{v[6:0], s}`: bit 7 leaves, `s` enters bit 0 (R24, R165, R169). -/
def shiftIn (v : Byte) (s : Bool) : Byte := v.extractLsb' 0 7 ++ BitVec.ofBool s

/-- One data bit transferred: the shifter takes `s` in and BITCNT counts it (SHIFT and BIT_SAMPLE, R206). -/
def Block.shiftBit (b : Block) (s : Bool) : Block :=
  { b with shreg := shiftIn b.shreg s, bitcnt := b.bitcnt + 1#4 }

/-- `RXDATA <- SHREG` (LATCH_RX, R206). -/
def Block.latchRx (b : Block) : Block := { b with rxdata := b.shreg }

/-- `finish()` (R205). -/
def Block.finish (b : Block) : Block := { b with busy := false, op := 0#3, ustep := 0#4, bitcnt := 0#4 }

/-- What every accepted command does: `BUSY <- 1; OP <- opc; USTEP <- 0; BITCNT <- 0` (R204). -/
def Block.startCommand (b : Block) (opc : BitVec 3) : Block :=
  { b with busy := true, op := opc, ustep := 0#4, bitcnt := 0#4 }

end Sys2Proof.Machine
end

