-- ==== Sys2Proof/Machine/Operands.lean ====
section
/-! DEFINITION. Where operands come from (R93): TXDATA for WRITE, bit A for READ, captured at acceptance (R78);
and the address byte a host forms (R94). -/

namespace Sys2Proof.Machine

/-- WRITE's operand: `SHREG <- TXDATA` at acceptance (R78, R204). -/
def Block.captureWriteOperand (b : Block) : Block := { b with shreg := b.txdata }

/-- READ's operand: `SHREG <- 0x00; ACKPOL <- A` at acceptance (R78, R204). -/
def Block.captureReadOperand (b : Block) (a : Bool) : Block := { b with shreg := 0x00#8, ackpol := a }

/-- The bit SDA_BIT puts on Data: `SHREG[7]` (R206). -/
def Block.nextBit (b : Block) : Bool := b.shreg.getLsbD 7

/-- `address_byte(a, rw) = {a[6:0], rw}` (R94): rw false is the write direction; that rw true is the read
direction is the spec's general knowledge (D24, log entry 17). -/
def addressByte (a : DeviceAddress) (rw : Bool) : Byte := a ++ BitVec.ofBool rw

end Sys2Proof.Machine
end

