-- ==== Sys2Proof/Machine/Flags.lean ====
section
/-! DEFINITION. The flags ACK and CMDERR (R28, R33, R35), the STATUS byte (R68) and reading a register (R66). -/

namespace Sys2Proof.Machine

/-- `ACK <- not sda_sample()`: a low sample means ACK (R28, R57). -/
def Block.latchAck (b : Block) (sda : Bool) : Block := { b with ack := !sda }

/-- A rejected command write: `CMDERR <- 1`, nothing else (R33, R232). -/
def Block.rejectCommand (b : Block) : Block := { b with cmderr := true }

/-- A write to STATUS: bit 6 set clears CMDERR, the other bits are ignored (R67). -/
def Block.writeStatus (b : Block) (v : Byte) : Block :=
  if v.getLsbD 6 then { b with cmderr := false } else b

/-- The STATUS byte `{0, CMDERR, SDA_DRV, SCL_DRV, sda_level, scl_level, ACK, BUSY}` (R66, R68). -/
def statusByte (b : Block) (scl sda : Bool) : Byte :=
  BitVec.ofBool false ++ BitVec.ofBool b.cmderr ++ BitVec.ofBool b.sdaDrv.bit ++ BitVec.ofBool b.sclDrv.bit
    ++ BitVec.ofBool sda ++ BitVec.ofBool scl ++ BitVec.ofBool b.ack ++ BitVec.ofBool b.busy

/-- `MemRead(addr, 1)` in a cycle with the state `b` and the levels `scl`, `sda` (R66). No read changes a state. -/
def memRead (b : Block) (scl sda : Bool) : Reg → Byte
  | .cmd => 0x00#8
  | .status => statusByte b scl sda
  | .txdata => b.txdata
  | .rxdata => b.rxdata

end Sys2Proof.Machine
end

