-- ==== Sys2Proof/Machine/Acceptance.lean ====
section
/-! DEFINITION. Acceptance of a command by an idle block (R204): what each of the six commands loads. -/

namespace Sys2Proof.Machine

/-- NOP loads nothing (R140, R204). -/
def acceptNop (b : Block) : Block := b

/-- BEGIN, opcode 1 (R142, R204). -/
def acceptBegin (b : Block) : Block := b.startCommand 1#3

/-- START, opcode 2 (R144, R204). -/
def acceptStart (b : Block) : Block := b.startCommand 2#3

/-- STOP, opcode 3 (R146, R204). -/
def acceptStop (b : Block) : Block := b.startCommand 3#3

/-- WRITE, opcode 4, captures TXDATA (R160, R204). -/
def acceptWrite (b : Block) : Block := (b.startCommand 4#3).captureWriteOperand

/-- READ, opcode 5, clears the accumulator and captures A (R164, R204). -/
def acceptRead (a : Bool) (b : Block) : Block := (b.startCommand 5#3).captureReadOperand a

/-- What the command `i` loads when it is accepted. -/
def acceptCommand : Instr → Block → Block
  | .nop => acceptNop
  | .begin => acceptBegin
  | .start => acceptStart
  | .stop => acceptStop
  | .write => acceptWrite
  | .read a => acceptRead a

end Sys2Proof.Machine
end

