-- ==== Sys2Proof/Machine/Sequencer.lean ====
section
/-! DEFINITION. The sequencer and the block's step function (44_sequencer): micro-operations R201, R206,
micro-programs R202, advance R203, branches R207, register writes R67, R204, outputs R208, step R209. -/

namespace Sys2Proof.Machine

/-- The twelve micro-operations of R201. -/
inductive MicroOp where
  | sclLow
  | sclRel
  | sdaLow
  | sdaRel
  | sdaBit
  | sdaAck
  | wait
  | sclPoll
  | shift
  | bitSample
  | ackSample
  | latchRx
deriving DecidableEq, Repr

/-- The reference code of a micro-operation (R201). -/
def MicroOp.code : MicroOp → Nat
  | .sclLow => 0
  | .sclRel => 1
  | .sdaLow => 2
  | .sdaRel => 3
  | .sdaBit => 4
  | .sdaAck => 5
  | .wait => 6
  | .sclPoll => 7
  | .shift => 8
  | .bitSample => 9
  | .ackSample => 10
  | .latchRx => 11

/-- The column BEGIN of R202. -/
def beginProgram : List MicroOp := [.sdaRel, .sclRel, .sclPoll]

/-- The column START of R202. -/
def startProgram : List MicroOp :=
  [.sdaRel, .wait, .sclRel, .sclPoll, .wait, .sdaLow, .wait, .sclLow, .wait]

/-- The column STOP of R202. -/
def stopProgram : List MicroOp :=
  [.sclLow, .wait, .sdaLow, .wait, .sclRel, .sclPoll, .wait, .sdaRel, .wait]

/-- The column WRITE of R202. -/
def writeProgram : List MicroOp :=
  [.sclLow, .sdaBit, .wait, .sclRel, .sclPoll, .wait, .shift,
   .sclLow, .sdaRel, .wait, .sclRel, .sclPoll, .wait, .ackSample, .sclLow]

/-- The column READ of R202. -/
def readProgram : List MicroOp :=
  [.sdaRel, .sclLow, .wait, .sclRel, .sclPoll, .wait, .bitSample,
   .sclLow, .sdaAck, .wait, .sclRel, .sclPoll, .wait, .sclLow, .sdaRel, .latchRx]

/-- The micro-program of an opcode (R202); OP 0 has none, and 6 and 7 are never held (R31). -/
def microProgram (op : BitVec 3) : List MicroOp :=
  match op.toNat with
  | 1 => beginProgram
  | 2 => startProgram
  | 3 => stopProgram
  | 4 => writeProgram
  | 5 => readProgram
  | _ => []

/-- The micro-operation at the sequencer's position, whether the block is busy or not. -/
def Block.atPosition (b : Block) : Option MicroOp := (microProgram b.op)[b.ustep.toNat]?

/-- The micro-operation current in a cycle: none while BUSY = 0 (R200). At a position outside every micro-program,
which R37 says no run reaches, none is current either (log entry 5). -/
def Block.current (b : Block) : Option MicroOp := if b.busy then b.atPosition else none

/-- The state update of each micro-operation (R206). -/
def MicroOp.update (u : MicroOp) (b : Block) (sda : Bool) : Block :=
  match u with
  | .sclLow => b.driveScl .drivenLow
  | .sclRel => b.driveScl .released
  | .sdaLow => b.driveSda .drivenLow
  | .sdaRel => b.driveSda .released
  | .sdaBit => b.driveSda (driveForBit b.nextBit)
  | .sdaAck => b.driveSda (driveForBit (!b.ackpol))
  | .wait => b
  | .sclPoll => b
  | .shift => b.shiftBit false
  | .bitSample => b.shiftBit sda
  | .ackSample => b.latchAck sda
  | .latchRx => b.latchRx

/-- Whether a micro-operation completes in the cycle: WAIT when `dly_done`, SCL_POLL when Clock reads high, every
other always (R201, R206). -/
def MicroOp.completes (u : MicroOp) (scl dly : Bool) : Bool :=
  match u with
  | .wait => dly
  | .sclPoll => scl
  | _ => true

/-- Whether the position is the last index of its micro-program (R202, R203). -/
def Block.atLast (b : Block) : Bool := b.ustep.toNat + 1 == (microProgram b.op).length

/-- The branch of a bit loop: back to `top` while fewer than 8 bits are done, else on to 7 (R207). -/
def Block.branch (b : Block) (top : BitVec 4) : Block :=
  { b with ustep := if b.bitcnt = 8#4 then 7#4 else top }

/-- Where a completed micro-operation leaves the position: the branches of R207, else `finish()` after the last
index, else the next index (R203). `b` has the micro-operation's own update. -/
def Block.advance (b : Block) (u : MicroOp) : Block :=
  match u with
  | .shift => b.branch 0#4
  | .bitSample => b.branch 1#4
  | _ => if b.atLast then b.finish else { b with ustep := b.ustep + 1#4 }

/-- Part (1) of the step function, the sequencer (R209). -/
def sequencer (b : Block) (scl sda dly : Bool) : Block :=
  match b.current with
  | none => b
  | some u =>
    if u.completes scl dly then (u.update b sda).advance u
    else u.update b sda

/-- A write of the byte `v` to CMD in a cycle that starts in `s` (R65, R204): rejected while busy, whatever `v` is;
rejected when illegal; else accepted. `n` is the state part (1) made of `s`. -/
def commandIssue (s n : Block) (v : Byte) : Block :=
  if s.busy then n.rejectCommand
  else
    match decodeCommand v with
    | none => n.rejectCommand
    | some i => acceptCommand i n

/-- Part (2) of the step function, the host port's write (R67, R209). -/
def registerWrite (s n : Block) (r : Reg) (v : Byte) : Block :=
  match r with
  | .cmd => commandIssue s n v
  | .status => n.writeStatus v
  | .txdata => { n with txdata := v }
  | .rxdata => n

/-- The step function of the block, complete (R209): reset beats everything, then the sequencer, then the port. -/
def blockStep (b : Block) (i : Input) : Block :=
  if i.rst then Block.reset
  else
    let n := sequencer b i.sclLevel i.sdaLevel i.dlyDone
    if i.regWe then registerWrite b n i.regAddr i.regWdata else n

/-- `dly_req`: 1 exactly while a WAIT is current (R61, R208). -/
def Block.dlyReq (b : Block) : Bool := b.current == some .wait

/-- The outputs of a cycle (R54 to R56, R208). -/
def outputs (b : Block) (i : Input) : Outputs where
  regRdata := memRead b i.sclLevel i.sdaLevel i.regAddr
  busy := b.busy
  sclDriveLow := b.sclDrv.bit
  sdaDriveLow := b.sdaDrv.bit
  dlyReq := b.dlyReq

/-- The event of a micro-operation's own work in one cycle (R131): one drive event for each executed line drive,
one sample event for each sample with its value; WAIT makes its end when it completes; SHIFT and LATCH_RX none. -/
def MicroOp.events (u : MicroOp) (b : Block) (scl sda dly : Bool) : List Event :=
  match u with
  | .sclLow => [.drive .clock .drivenLow]
  | .sclRel => [.drive .clock .released]
  | .sdaLow => [.drive .data .drivenLow]
  | .sdaRel => [.drive .data .released]
  | .sdaBit => [.drive .data (driveForBit b.nextBit)]
  | .sdaAck => [.drive .data (driveForBit (!b.ackpol))]
  | .wait => if dly then [.waitEnd] else []
  | .sclPoll => [.sampleScl scl]
  | .shift => []
  | .bitSample => [.sampleSda sda]
  | .ackSample => [.sampleSda sda]
  | .latchRx => []

/-- The events of one cycle (R131). In a cycle with `rst` the micro-operation has no effect (R234 (1)) and makes no
event. A wait begins at the edge at which `dly_req` rises (R61; log entry 6). -/
def cycleEvents (b : Block) (i : Input) : List Event :=
  if i.rst then []
  else
    match b.current with
    | none => []
    | some u =>
      u.events b i.sclLevel i.sdaLevel i.dlyDone
        ++ (if !b.dlyReq && (blockStep b i).dlyReq then [.waitBegin] else [])

end Sys2Proof.Machine
end

