-- ==== Sys2Proof/Machine/HostPort.lean ====
section
/-! DEFINITION. The host agent: the access each of its statements makes in a cycle (R98), what it does next, the
pseudo-instructions (R99 to R101) and SCAN (43_scan). -/

namespace Sys2Proof.Machine

/-- One access of the host port: write enable, register, write data (R53). -/
structure Access where
  we : Bool
  reg : Reg
  wdata : Byte
deriving DecidableEq, Repr

/-- A cycle in which the host makes no access (log entry 8). -/
def Access.none : Access := { we := false, reg := .cmd, wdata := 0x00#8 }

/-- The access a statement makes in its cycle. -/
def HostOp.access : HostOp → Access
  | .wr r v => { we := true, reg := r, wdata := v }
  | .rd r => { we := false, reg := r, wdata := 0x00#8 }
  | .waitIdle => { we := false, reg := .status, wdata := 0x00#8 }
  | .idle => Access.none
  | .delayUs _ => Access.none
  | .idleFor _ => Access.none
  | .scan _ _ => Access.none
  | .scanProbe _ _ _ => Access.none
  | .scanTest _ _ _ => Access.none

/-- The access the host makes in the present cycle; none when its program is over. -/
def HostAgent.access (h : HostAgent) : Access :=
  match h.prog with
  | [] => Access.none
  | o :: _ => o.access

/-- WAITIDLE, READB and the other macros of R99 that have no loop of their own; SCAN and DELAY_US are statements
of the host agent. -/
inductive Pseudo where
  /-- A command mnemonic alone: `WR CMD, <byte>` (R98). -/
  | command (i : Instr)
  /-- WAITIDLE. -/
  | waitIdle
  /-- `DO <cmd>` (R99: for BEGIN, START, STOP). -/
  | doCommand (i : Instr)
  /-- `WRITEB v`. -/
  | writeB (v : Byte)
  /-- `READB ACK` and `READB NACK`. -/
  | readB (ack : Bool)
  /-- `ADDRW a`. -/
  | addrW (a : DeviceAddress)
  /-- `ADDRR a`. -/
  | addrR (a : DeviceAddress)
  /-- `DELAY_US n`. -/
  | delayUs (n : Nat)
  /-- `SCAN buf, cap`. -/
  | scan (buf cap : Nat)
deriving DecidableEq, Repr

/-- `WRITEB v`: `WR TXDATA, v; WRITE; WAITIDLE; RD STATUS` (R99). -/
def writeBOps (v : Byte) : List HostOp :=
  [.wr .txdata v, .wr .cmd (encode .write), .waitIdle, .rd .status]

/-- `DO <cmd>`: `<cmd>; WAITIDLE` (R99). -/
def doOps (i : Instr) : List HostOp := [.wr .cmd (encode i), .waitIdle]

/-- The expansion of a pseudo-instruction (R98, R99, R180). -/
def Pseudo.expand : Pseudo → List HostOp
  | .command i => [.wr .cmd (encode i)]
  | .waitIdle => [.waitIdle]
  | .doCommand i => doOps i
  | .writeB v => writeBOps v
  | .readB a => [.wr .cmd (encode (.read a)), .waitIdle, .rd .rxdata]
  | .addrW a => writeBOps (addressByte a false)
  | .addrR a => writeBOps (addressByte a true)
  | .delayUs n => [.delayUs n]
  | .scan buf cap => [.scan buf cap]

/-- The address byte of SCAN's probe of `a`: `(a << 1) & 0xFF` (R181). -/
def probeByte (a : Nat) : Byte := BitVec.ofNat 8 (a <<< 1)

/-- One round of SCAN's loop up to its test: START, WRITE of the address byte, STOP, the settle delay (R181). The
RD STATUS of WRITEB is the last read before the test. -/
def probeOps (buf cap a : Nat) : List HostOp :=
  doOps .start ++ writeBOps (probeByte a) ++ doOps .stop
    ++ [.delayUs Config.settleMicroseconds, .scanTest buf cap a]

/-- SCAN's first line: `count <- 0` (R181). No cell changes. -/
def ScanMemory.start (m : ScanMemory) : ScanMemory where
  count := 0
  cells := m.cells

/-- The body of `if ack = 1` in SCAN: `if count < cap: buf[count] <- a`, then count (R181). -/
def ScanMemory.found (m : ScanMemory) (buf cap a : Nat) : ScanMemory where
  count := m.count + 1
  cells := if m.count < cap then HostMemory.write (buf + m.count) (BitVec.ofNat 7 a) m.cells else m.cells

/-- SCAN's loop goes on to address `a`, or is over after `SCAN_LAST` (R181, R183). -/
def scanFrom (buf cap a : Nat) : List HostOp :=
  if a ≤ Config.scanLast then [.scanProbe buf cap a] else []

/-- The acknowledgment SCAN captured: bit 1 of the last STATUS read (R99). -/
def HostAgent.lastAck (h : HostAgent) : Bool := (h.reads.headD 0x00#8).getLsbD 1

/-- The test at the end of SCAN's round for address `a` (R181, R182): an unanswered probe is left out (R185); after
a find the loop ends early once `cap` addresses have been found. -/
def HostAgent.scanTest (h : HostAgent) (buf cap a : Nat) (rest : List HostOp) : HostAgent :=
  if h.lastAck then
    let m := h.scan.found buf cap a
    { h with scan := m, prog := (if cap ≤ m.count then [] else scanFrom buf cap (a + 1)) ++ rest }
  else { h with prog := scanFrom buf cap (a + 1) ++ rest }

/-- The host after a cycle whose `reg_rdata` was `rdata`: a finished statement leaves its program, WAITIDLE stays
while bit 0 of STATUS reads 1 (R100), the loops unfold (log entries 7, 8 and 9). -/
def HostAgent.next (h : HostAgent) (rdata : Byte) : HostAgent :=
  match h.prog with
  | [] => h
  | .wr _ _ :: rest => { h with prog := rest }
  | .rd _ :: rest => { h with prog := rest, reads := rdata :: h.reads }
  | .idle :: rest => { h with prog := rest }
  | .waitIdle :: rest => if rdata.getLsbD 0 then h else { h with prog := rest }
  | .delayUs n :: rest => { h with prog := .idleFor (n * Config.cyclesPerMicrosecond) :: rest }
  | .idleFor 0 :: rest => { h with prog := rest }
  | .idleFor (n + 1) :: rest => { h with prog := .idleFor n :: rest }
  | .scan buf cap :: rest => { h with prog := scanFrom buf cap Config.scanFirst ++ rest, scan := h.scan.start }
  | .scanProbe buf cap a :: rest => { h with prog := probeOps buf cap a ++ rest }
  | .scanTest buf cap a :: rest => h.scanTest buf cap a rest

/-- SCAN as a function of which devices answer (R181, R182): the loop over the candidates still to probe. -/
def scanLoop (answers : DeviceAddress → Bool) (buf cap : Nat) : List Nat → ScanMemory → ScanMemory
  | [], m => m
  | a :: as, m =>
    if answers (BitVec.ofNat 7 a) then
      let m' := m.found buf cap a
      if cap ≤ m'.count then m' else scanLoop answers buf cap as m'
    else scanLoop answers buf cap as m

/-- The candidates of SCAN: 8, 9, ..., 119, ascending (R183). -/
def scanCandidates : List Nat :=
  (List.range (Config.scanLast + 1 - Config.scanFirst)).map (· + Config.scanFirst)

/-- What `SCAN buf, cap` returns and stores, from the host memory `m`, when exactly the devices in `answers` answer
(R181, R182). -/
def scanResult (answers : DeviceAddress → Bool) (buf cap : Nat) (m : ScanMemory) : ScanMemory :=
  scanLoop answers buf cap scanCandidates m.start

end Sys2Proof.Machine
end

