-- ==== Sys2Proof/Machine/Cycle.lean ====
section
/-! DEFINITION. One clock cycle of the whole machine, and a command from its issue as far as the script of the
environment reaches (log entry 1). -/

namespace Sys2Proof.Machine

/-- The block's inputs when the host makes the access `a` and the environment answers `e` (R200). -/
def inputOf (a : Access) (e : EnvCycle) : Input where
  rst := e.rst
  regWe := a.we
  regAddr := a.reg
  regWdata := a.wdata
  sclLevel := e.sclLevel
  sdaLevel := e.sdaLevel
  dlyDone := e.dlyDone

/-- One clock cycle in which the host makes the access `a` and becomes `h` (R51, R209): the block steps, the
script and the cycle number move on, the history grows. -/
def State.cycleWith (s : State) (a : Access) (h : HostAgent) : State where
  blk := blockStep s.blk (inputOf a s.envNow)
  env := s.env.tail
  host := h
  cycle := s.cycle + 1
  events := s.events ++ cycleEvents s.blk (inputOf a s.envNow)

/-- One clock cycle of the machine: the host makes the access its program says and sees `reg_rdata` of the same
cycle (R54). -/
def tick (s : State) : State :=
  let a := s.host.access
  s.cycleWith a (s.host.next (memRead s.blk s.envNow.sclLevel s.envNow.sdaLevel a.reg))

/-- `n` clock cycles. -/
def ticks : Nat → State → State
  | 0, s => s
  | n + 1, s => ticks n (tick s)

/-- Cycles while BUSY = 1, at most one for each answer in the list given: with the whole script, the run ends when
the command has finished, when `rst` has ended it, or where the script ends with the command still in progress. -/
def runWhileBusy : List EnvCycle → State → State
  | [], s => s
  | _ :: es, s => if s.blk.busy then runWhileBusy es (tick s) else s

/-- The block after the cycle of a write to CMD of a command that loads `accept` (R204, R209): reset wins; while
busy the write is rejected and the micro-operation in progress has its effect; else the command is accepted. -/
def issueBlock (accept : Block → Block) (b : Block) (e : EnvCycle) : Block :=
  if e.rst then Block.reset
  else
    let n := sequencer b e.sclLevel e.sdaLevel e.dlyDone
    if b.busy then n.rejectCommand else accept n

/-- The access that issues the command `i`: `WR CMD, <byte>` (R98). -/
def issueAccess (i : Instr) : Access := { we := true, reg := .cmd, wdata := encode i }

/-- The cycle in which the host writes the command `i` to CMD. -/
def issueCycle (i : Instr) (accept : Block → Block) (s : State) : State where
  blk := issueBlock accept s.blk s.envNow
  env := s.env.tail
  host := s.host
  cycle := s.cycle + 1
  events := s.events ++ cycleEvents s.blk (inputOf (issueAccess i) s.envNow)

/-- A command from its issue on (R141): the cycle of the CMD write and, when that was not rejected, the command's
micro-operations as far as the script reaches; the steps after that go on one cycle at a time. -/
def runCommand (i : Instr) (accept : Block → Block) (s : State) : State :=
  let t := issueCycle i accept s
  if s.blk.busy then t else runWhileBusy t.env t

end Sys2Proof.Machine
end

