-- ==== Sys2Proof/Machine/Conditions.lean ====
section
/-! DEFINITION. The meanings of NOP, BEGIN, START and STOP (41_conditions). -/

namespace Sys2Proof.Machine

/-- NOP (R140): the write has no effect on an idle block; while busy it is rejected like any command. -/
def execNop (s : State) : Host.Outcome State Fault Refusal := .next (runCommand .nop acceptNop s)

/-- BEGIN (R142): release Data, raise Clock. -/
def execBegin (s : State) : Host.Outcome State Fault Refusal := .next (runCommand .begin acceptBegin s)

/-- START (R144): the start condition, also as repeated start (R145). -/
def execStart (s : State) : Host.Outcome State Fault Refusal := .next (runCommand .start acceptStart s)

/-- STOP (R146): the stop condition. -/
def execStop (s : State) : Host.Outcome State Fault Refusal := .next (runCommand .stop acceptStop s)

end Sys2Proof.Machine
end

