-- ==== Sys2Proof/Machine/Transfer.lean ====
section
/-! DEFINITION. The meanings of WRITE and READ (42_byte_transfer). -/

namespace Sys2Proof.Machine

/-- WRITE (R160): send TXDATA, most significant bit first, and latch the acknowledgment. -/
def execWrite (s : State) : Host.Outcome State Fault Refusal := .next (runCommand .write acceptWrite s)

/-- READ (R164): receive a byte into RXDATA and send the acknowledgment `a`. -/
def execRead (a : Bool) (s : State) : Host.Outcome State Fault Refusal :=
  .next (runCommand (.read a) (acceptRead a) s)

end Sys2Proof.Machine
end

