-- ==== Sys2Proof/Machine/Fetch.lean ====
section
/-! DEFINITION. Where a step finds its command: the block fetches nothing (R34), the host's next statement hands
it one byte through CMD (R65, R90). -/

namespace Sys2Proof.Machine

/-- The command the host issues in the present cycle, with the machine after the host has taken the statement off
its program; none when the statement is anything else, an illegal byte among them. -/
def State.issued (s : State) : Option (Instr × State) :=
  match s.host.prog with
  | .wr .cmd v :: rest =>
    match decodeCommand v with
    | some i => some (i, { s with host := { s.host with prog := rest } })
    | none => none
  | _ => none

/-- The host given one more statement, before the others: `WR CMD, v`. -/
def State.withCommandByte (s : State) (v : Byte) : State :=
  { s with host := { s.host with prog := .wr .cmd v :: s.host.prog } }

end Sys2Proof.Machine
end

