-- ==== Sys2Proof/Machine/Step.lean ====
section
/-! DEFINITION. One step of the machine: a command the host issues, or one clock cycle. -/

namespace Sys2Proof.Machine

/-- One step. When the host's next statement writes a legal command to CMD, the step is that command's meaning;
else it is one clock cycle (R209), be it a micro-operation, another access of the host, or nothing. -/
def step (s : State) : Host.Outcome State Fault Refusal :=
  match s.issued with
  | some (i, t) => exec i t
  | none => .next (tick s)

/-- `s` with the opcode-table word `w` as the byte the host writes to CMD in its next statement (log entry 4). -/
def State.withFetchWord (s : State) (nbits w : Nat) : State :=
  s.withCommandByte (commandByteOfWord nbits w)

end Sys2Proof.Machine
end

