-- ==== Sys2Proof/Machine/Bus.lean ====
section
/-! DEFINITION. The environment contract of the two lines (R59): an assumption about the outside, used by claims
that ask for it; the machine itself takes whatever levels the environment gives. -/

namespace Sys2Proof.Machine

/-- Which lines some other device pulls low in a cycle: `ext_scl_low`, `ext_sda_low` (R59). -/
structure BusPull where
  extSclLow : Bool
  extSdaLow : Bool
deriving DecidableEq, Repr

/-- No device on the bus pulls (95_test_vectors, part 2). -/
def BusPull.none : BusPull := { extSclLow := false, extSdaLow := false }

/-- A line is high only when the master has released it and no other device pulls it low (R59). -/
def wireLevel (d : LineDrive) (extLow : Bool) : Bool := !d.bit && !extLow

/-- The levels of the two wires, Clock and Data. -/
def Block.wires (b : Block) (p : BusPull) : Bool × Bool :=
  (wireLevel b.sclDrv p.extSclLow, wireLevel b.sdaDrv p.extSdaLow)

/-- What the environment answers in a cycle that starts in `b` under the contract, with zero latency. -/
def Block.busCycle (b : Block) (p : BusPull) (rst dly : Bool) : EnvCycle where
  rst := rst
  sclLevel := (b.wires p).1
  sdaLevel := (b.wires p).2
  dlyDone := dly

/-- The environment keeps the contract in a cycle that starts in `b`. -/
def EnvCycle.keepsContract (e : EnvCycle) (b : Block) (p : BusPull) : Bool :=
  e.sclLevel == (b.wires p).1 && e.sdaLevel == (b.wires p).2

/-- Cycles of the machine on a bus that keeps the contract, no reset: one for each pair of what the other devices
pull and whether the Delay Primitive answers. -/
def busTicks : List (BusPull × Bool) → State → State
  | [], s => s
  | (p, dly) :: rest, s => busTicks rest (tick { s with env := [s.blk.busCycle p false dly] })

end Sys2Proof.Machine
end

