-- ==== Sys2Proof/Machine/Operation.lean ====
section
/-! DEFINITION. The operation level of R6: the primitives of R120 and the pseudocode of R140, R142, R144, R146, R160
and R164, run on answers to polls and samples. It does not use the sequencer; R210 relates the two. -/

namespace Sys2Proof.Machine

/-- The operation-level primitives (R120 to R126), with the two places a sample goes and the delivery of READ. -/
inductive Prim where
  /-- `scl_low()`. -/
  | sclLow
  /-- `scl_raise()`: release Clock, then poll until it reads high (R126). -/
  | sclRaise
  /-- `sda_low()`. -/
  | sdaLow
  /-- `sda_release()`. -/
  | sdaRelease
  /-- `sda_set(v)` (R123). -/
  | sdaSet (v : Bool)
  /-- `wait()`. -/
  | wait
  /-- `ACK <- not sda_sample()`. -/
  | sampleAck
  /-- One sampled bit shifted into the accumulator (R165). -/
  | sampleBit
  /-- The accumulated byte goes to the output location (R164). -/
  | deliver
deriving DecidableEq, Repr

/-- What an operation works on: the lines, the results, the accumulator, and the answers still to come. `polls`
holds, for each clock raise, how many polls read low before the one that reads high; `data` the Data samples; lists that
are too short are log entry 20. -/
structure OpState where
  scl : LineDrive
  sda : LineDrive
  ack : Bool
  acc : Byte
  rxdata : Byte
  polls : List Nat
  data : List Bool
  events : List Event
deriving DecidableEq, Repr

/-- The events of `scl_raise()` with `k` polls that read low first: `k + 1` samples (R126). -/
def raiseEvents (k : Nat) : List Event :=
  .drive .clock .released :: (List.replicate k (.sampleScl false) ++ [.sampleScl true])

/-- One primitive (R121 to R126, R131). DESIGN CHOICE (log entry 20): where fewer answers are given than the pseudocode
asks for, a missing Data sample counts as low and a missing number of low polls as 0; the spec leaves both to the
environment (R124), and no statement rests on them. -/
def Prim.run (p : Prim) (o : OpState) : OpState :=
  match p with
  | .sclLow => { o with scl := .drivenLow, events := o.events ++ [.drive .clock .drivenLow] }
  | .sclRaise =>
    { o with scl := .released, polls := o.polls.tail, events := o.events ++ raiseEvents (o.polls.headD 0) }
  | .sdaLow => { o with sda := .drivenLow, events := o.events ++ [.drive .data .drivenLow] }
  | .sdaRelease => { o with sda := .released, events := o.events ++ [.drive .data .released] }
  | .sdaSet v => { o with sda := driveForBit v, events := o.events ++ [.drive .data (driveForBit v)] }
  | .wait => { o with events := o.events ++ [.waitBegin, .waitEnd] }
  | .sampleAck =>
    let v := o.data.headD false
    { o with ack := !v, data := o.data.tail, events := o.events ++ [.sampleSda v] }
  | .sampleBit =>
    let v := o.data.headD false
    { o with acc := shiftIn o.acc v, data := o.data.tail, events := o.events ++ [.sampleSda v] }
  | .deliver => { o with rxdata := o.acc }

/-- One bit of WRITE (R160). -/
def writeBitPrims (v : Bool) : List Prim := [.sclLow, .sdaSet v, .wait, .sclRaise, .wait]

/-- One bit of READ (R164). -/
def readBitPrims : List Prim := [.sclLow, .wait, .sclRaise, .wait, .sampleBit]

/-- The pseudocode of each command: `v` is WRITE's operand, whose bit 7 goes first (R71, R160). -/
def opProgram (v : Byte) : Instr → List Prim
  | .nop => []
  | .begin => [.sdaRelease, .sclRaise]
  | .start => [.sdaRelease, .wait, .sclRaise, .wait, .sdaLow, .wait, .sclLow, .wait]
  | .stop => [.sclLow, .wait, .sdaLow, .wait, .sclRaise, .wait, .sdaRelease, .wait]
  | .write =>
    [7, 6, 5, 4, 3, 2, 1, 0].flatMap (fun k => writeBitPrims (v.getLsbD k))
      ++ [.sclLow, .sdaRelease, .wait, .sclRaise, .wait, .sampleAck, .sclLow]
  | .read a =>
    [.sdaRelease] ++ (List.replicate 8 readBitPrims).flatten
      ++ [.sclLow, .sdaSet (!a), .wait, .sclRaise, .wait, .sclLow, .sdaRelease, .deliver]

/-- A sequence of primitives, one after the other, each to completion (R141). -/
def opRun (ps : List Prim) (o : OpState) : OpState := ps.foldl (fun o p => p.run o) o

/-- Where an operation starts from the block `b`: its lines and results, an empty accumulator, no event. -/
def Block.opStart (b : Block) (polls : List Nat) (data : List Bool) : OpState where
  scl := b.sclDrv
  sda := b.sdaDrv
  ack := b.ack
  acc := 0x00#8
  rxdata := b.rxdata
  polls := polls
  data := data
  events := []

/-- The whole command `i` at the operation level, from the block `b`, with these answers. -/
def Block.runOperation (b : Block) (i : Instr) (polls : List Nat) (data : List Bool) : OpState :=
  opRun (opProgram b.txdata i) (b.opStart polls data)

end Sys2Proof.Machine
end

