-- ==== Sys2Proof/Safety.lean ====
section
/-! DEFINITION. The invariants of R37, R38 and R130, the premises under which a command ends (R261), and the answers
a whole SCAN takes. -/

namespace Sys2Proof.Machine

/-- R37 (a), (b), (c): the sequencer position is legal. -/
def Block.positionOk (b : Block) : Bool :=
  (if b.busy then
    1 ≤ b.op.toNat && b.op.toNat ≤ 5 && b.ustep.toNat < (microProgram b.op).length
  else b.op == 0#3 && b.ustep == 0#4 && b.bitcnt == 0#4)
  && b.bitcnt.toNat ≤ 8
  && (b.bitcnt.toNat != 8 || ((b.op == 4#3 || b.op == 5#3) && 7 ≤ b.ustep.toNat))
  && (b.bitcnt.toNat == 0 || (b.op == 4#3 || b.op == 5#3))

/-- The drive state of the two lines at each position (R38, R130; read off R202): between commands, and before a
command's first micro-operation, never Clock released with Data driven low. -/
def Block.linesOk (b : Block) : Bool :=
  let c := b.sclDrv.bit
  let d := b.sdaDrv.bit
  let quiet := c || !d
  if b.busy then
    match b.op.toNat, b.ustep.toNat with
    | 1, 0 => quiet
    | 1, 1 => !d
    | 1, 2 => !c && !d
    | 2, 0 => quiet
    | 2, 1 => !d
    | 2, 2 => !d
    | 2, 3 => !c && !d
    | 2, 4 => !c && !d
    | 2, 5 => !c && !d
    | 2, 6 => !c && d
    | 2, 7 => !c && d
    | 2, 8 => c && d
    | 3, 0 => quiet
    | 3, 1 => c
    | 3, 2 => c
    | 3, 3 => c && d
    | 3, 4 => c && d
    | 3, 5 => !c && d
    | 3, 6 => !c && d
    | 3, 7 => !c && d
    | 3, 8 => !c && !d
    | 4, 0 => if b.bitcnt == 0#4 then quiet else !c
    | 4, 1 => c
    | 4, 2 => c
    | 4, 3 => c
    | 4, 4 => !c
    | 4, 5 => !c
    | 4, 6 => !c
    | 4, 7 => !c
    | 4, 8 => c
    | 4, 9 => c && !d
    | 4, 10 => c && !d
    | 4, 11 => !c && !d
    | 4, 12 => !c && !d
    | 4, 13 => !c && !d
    | 4, 14 => !c && !d
    | 5, 0 => quiet
    | 5, 1 => !d
    | 5, 2 => c && !d
    | 5, 3 => c && !d
    | 5, 4 => !c && !d
    | 5, 5 => !c && !d
    | 5, 6 => !c && !d
    | 5, 7 => !c && !d
    | 5, 8 => c && !d
    | 5, 9 => c && d == b.ackpol
    | 5, 10 => c && d == b.ackpol
    | 5, 11 => !c && d == b.ackpol
    | 5, 12 => !c && d == b.ackpol
    | 5, 13 => !c && d == b.ackpol
    | 5, 14 => c && d == b.ackpol
    | 5, 15 => c && !d
    | _, _ => true
  else quiet

/-- The invariant of the machine: R37, the lines, and the canonical form of host memory. -/
def State.wf (s : State) : Bool := s.blk.positionOk && s.blk.linesOk && HostMemory.wf s.host.scan.cells

/-- During WRITE of the byte `v`, R24 and R161: the shifter holds the bits not yet sent, left-aligned, and from the
SDA_BIT of a bit to its SHIFT Data is driven for that bit. -/
def Block.sendsByte (b : Block) (v : Byte) : Bool :=
  !(b.busy && b.op == 4#3)
    || ((decide (7 ≤ b.ustep.toNat) || b.shreg == v <<< b.bitcnt.toNat)
        && (!(decide (2 ≤ b.ustep.toNat) && decide (b.ustep.toNat ≤ 6))
            || b.sdaDrv == driveForBit (v.getMsbD b.bitcnt.toNat)))

/-- The micro-operations a command executes, in order: the two bit loops of R207 written out. -/
def unrolled : Instr → List MicroOp
  | .nop => []
  | .begin => beginProgram
  | .start => startProgram
  | .stop => stopProgram
  | .write => (List.replicate 8 (writeProgram.take 7)).flatten ++ writeProgram.drop 7
  | .read _ =>
    readProgram.take 1 ++ (List.replicate 8 ((readProgram.drop 1).take 6)).flatten ++ readProgram.drop 7

/-- The answers `es` take a command exactly through the micro-operations `us`: every wait is answered and every poll
reads high in the end (the premises of R261), after any number of cycles of each (R125, R127), with no reset. -/
def answered : List MicroOp → List EnvCycle → Bool
  | [], [] => true
  | [], _ :: _ => false
  | _ :: _, [] => false
  | u :: us, e :: es =>
    !e.rst && (if u.completes e.sclLevel e.dlyDone then answered us es else answered (u :: us) es)

/-- The micro-operation samples Data. -/
def MicroOp.samplesData : MicroOp → Bool
  | .bitSample => true
  | .ackSample => true
  | _ => false

/-- The primitive samples Data. -/
def Prim.samplesData : Prim → Bool
  | .sampleBit => true
  | .sampleAck => true
  | _ => false

/-- The Data samples the answers give to the micro-operations, in order. -/
def dataSamples : List MicroOp → List EnvCycle → List Bool
  | u :: us, e :: es =>
    if u.completes e.sclLevel e.dlyDone then
      (if u.samplesData then [e.sdaLevel] else []) ++ dataSamples us es
    else dataSamples (u :: us) es
  | _, _ => []

/-- For each clock raise, how many polls read low before the one that read high; `k` counts those already seen. -/
def pollCounts (k : Nat) : List MicroOp → List EnvCycle → List Nat
  | u :: us, e :: es =>
    if u.completes e.sclLevel e.dlyDone then
      (if u = .sclPoll then [k] else []) ++ pollCounts 0 us es
    else pollCounts (if u = .sclPoll then k + 1 else k) (u :: us) es
  | _, _ => []

/-- The byte whose bits, most significant first, are the given samples (R165). -/
def byteOfSamples (l : List Bool) : Byte := l.foldl shiftIn 0x00#8

/-- The host makes no write and waits for the command to end: its program is over or is at WAITIDLE (R100, R256). -/
def HostAgent.waiting (h : HostAgent) : Bool :=
  match h.prog with
  | [] => true
  | .waitIdle :: _ => true
  | _ => false

/-- The block is ready for a command and no reset comes in this cycle. -/
def State.ready (s : State) : Bool := !s.blk.busy && !s.envNow.rst

/-- No answer of the script asserts `rst`. -/
def State.noReset (s : State) : Bool := s.env.all (fun e => !e.rst)

/-- `n` steps of the machine, stopping at the first stop. -/
def steps : Nat → State → Host.Outcome State Fault Refusal
  | 0, s => .next s
  | n + 1, s =>
    match step s with
    | .next t => steps n t
    | .fault r => .fault r
    | .refused r => .refused r

/-- What the environment answers in one round of SCAN's loop, statement by statement: `start`, `write` and `stop` are
the answers to the three commands after their issue, `settle` those to DELAY_US, each other field one cycle
(R181, R184; log entries 7, 8 and 9). -/
structure ScanRound where
  probe : EnvCycle
  startIssue : EnvCycle
  start : List EnvCycle
  startIdle : EnvCycle
  address : EnvCycle
  writeIssue : EnvCycle
  write : List EnvCycle
  writeIdle : EnvCycle
  statusRead : EnvCycle
  stopIssue : EnvCycle
  stop : List EnvCycle
  stopIdle : EnvCycle
  settle : List EnvCycle
  test : EnvCycle
deriving DecidableEq, Repr

/-- The answers of a round, one a cycle. -/
def ScanRound.script (r : ScanRound) : List EnvCycle :=
  r.probe :: r.startIssue :: r.start ++ r.startIdle :: r.address :: r.writeIssue :: r.write
    ++ r.writeIdle :: r.statusRead :: r.stopIssue :: r.stop ++ r.stopIdle :: r.settle ++ [r.test]

/-- The three commands of the round are answered to their end, and the delay has as many answers as it takes
cycles. -/
def ScanRound.complete (r : ScanRound) : Bool :=
  answered (unrolled .start) r.start && answered (unrolled .write) r.write && answered (unrolled .stop) r.stop
    && r.settle.length == Config.settleMicroseconds * Config.cyclesPerMicrosecond + 2

/-- A device answered the round's probe: WRITE's one Data sample read low (R162). -/
def ScanRound.ack (r : ScanRound) : Bool := dataSamples (unrolled .write) r.write == [false]

/-- The machine after a command that the answers `es` took to its end, from `s` with the script `e :: es ++ rest`:
the block is `b`, the history grew by `evs`, the host still waits. -/
def State.afterCommand (s : State) (b : Block) (es rest : List EnvCycle) (evs : List Event) : State where
  blk := b
  env := rest
  host := s.host
  cycle := s.cycle + 1 + es.length
  events := s.events ++ evs

end Sys2Proof.Machine
end

