-- ==== Sys2Proof/Certificates/Slice0/Obligations.lean ====
section
/-! DEFINITION. The statements for the provers. -/

open Sys2Proof Sys2Proof.Machine

/-! ### Encoding -/

/-- Decoding an encoded command gives it back, with its operand (R92). -/
def Obligations.EncodeThenDecode : Prop :=
  ∀ i : Instr, i.wellFormed = true → decodeCommand (encode i) = some i

/-- The map of R92, from its bytes, and R96: the seven bytes decode as the map says and the 249 others to nothing. -/
def Obligations.CommandByteMap : Prop :=
  decodeCommand 0x00#8 = some .nop ∧
  decodeCommand 0x01#8 = some .begin ∧
  decodeCommand 0x02#8 = some .start ∧
  decodeCommand 0x03#8 = some .stop ∧
  decodeCommand 0x04#8 = some .write ∧
  decodeCommand 0x05#8 = some (.read false) ∧
  decodeCommand 0x0D#8 = some (.read true) ∧
  (∀ b : Byte, b ∉ [0x00#8, 0x01#8, 0x02#8, 0x03#8, 0x04#8, 0x05#8, 0x0D#8] → decodeCommand b = none) ∧
  ((List.range 256).filter (fun n => (decodeCommand (BitVec.ofNat 8 n)).isNone)).length = 249

/-- `address_byte(a, rw)` is `((a << 1) | rw) & 0xFF`, and the examples of R94. The reading of rw = 1 as the read
direction is log entry 17's; the value is R94's. -/
def Obligations.AddressByteValue : Prop :=
  (∀ (a : DeviceAddress) (rw : Bool), (addressByte a rw).toNat = (2 * a.toNat + rw.toNat) % 256) ∧
  addressByte 0x20#7 false = 0x40#8 ∧ addressByte 0x42#7 false = 0x84#8 ∧ addressByte 0x42#7 true = 0x85#8 ∧
  addressByte 8#7 false = 0x10#8 ∧ addressByte 119#7 false = 0xEE#8

/-! ### The step -/

/-- When the host's next statement writes a byte that decodes to a command `i`, the step is `exec i` on the machine
with that statement taken off the host's program; the opcode-table word placed by `withFetchWord` is such a
statement; and in every other case the step is one clock cycle (log entries 1 and 4 are the model's own). -/
def Obligations.StepRunsIssuedCommand : Prop :=
  (∀ (s : State) (v : Byte) (rest : List HostOp) (i : Instr),
    s.host.prog = .wr .cmd v :: rest → decodeCommand v = some i → i.wellFormed = true →
      step s = exec i { s with host := { s.host with prog := rest } }) ∧
  (∀ (s : State) (nbits w : Nat) (i : Instr),
    decodeTableWord nbits w = some i → step (s.withFetchWord nbits w) = exec i s) ∧
  (∀ s : State,
    (∀ (v : Byte) (rest : List HostOp), s.host.prog = .wr .cmd v :: rest → decodeCommand v = none) →
      step s = .next (tick s))

/-- With at most one answer in the script, every step is exactly one cycle of R209, a command write included: the
meanings and the block's step function agree on the cycle that issues a command. -/
def Obligations.StepOnOneAnswerIsOneCycle : Prop :=
  ∀ s : State, s.env.length ≤ 1 → step s = .next (tick s)

/-- Every step is a whole number of cycles of R209, at least one, and no step stops (R13, R209, R230). -/
def Obligations.StepIsWholeCycles : Prop :=
  ∀ s : State, ∃ n : Nat, 1 ≤ n ∧ step s = .next (ticks n s)

/-! ### Reset -/

/-- R251: the reset value of each of the twelve elements, the outputs, and STATUS with its two live bits. -/
def Obligations.ResetStateValues : Prop :=
  State.reset.blk =
    { sclDrv := .released, sdaDrv := .released, shreg := 0x00#8, bitcnt := 0#4, txdata := 0x00#8, rxdata := 0x00#8,
      ack := false, ackpol := false, busy := false, op := 0#3, ustep := 0#4, cmderr := false } ∧
  (∀ i : Input, i.regAddr = .status →
    outputs State.reset.blk i =
      { regRdata := BitVec.ofNat 8 (8 * i.sdaLevel.toNat + 4 * i.sclLevel.toNat), busy := false,
        sclDriveLow := false, sdaDriveLow := false, dlyReq := false })

/-- R52: in a cycle with `rst` = 1 the next state is the reset state whatever else the cycle holds; and a step from
such a cycle leaves the block reset, be it a command write (R234 (1)), with one answer used and no event: that a cycle
with `rst` makes no event is log entry 6's inference from R234 (1), the model's and not the spec's words. -/
def Obligations.ResetBeatsEverything : Prop :=
  (∀ (b : Block) (i : Input), i.rst = true → blockStep b i = Block.reset) ∧
  (∀ s : State, s.envNow.rst = true →
    ∃ t, step s = .next t ∧ t.blk = Block.reset ∧ t.events = s.events ∧ t.env = s.env.tail)

/-! ### The register port -/

/-- R66: the value of a read of each register, STATUS bit by bit; and no read changes a state: without a write the
next state does not depend on the address and data of the port. -/
def Obligations.RegisterReadValues : Prop :=
  ∀ (b : Block) (i : Input),
    (i.regAddr = .cmd → (outputs b i).regRdata = 0x00#8) ∧
    (i.regAddr = .status →
      (List.range 8).map (outputs b i).regRdata.getLsbD =
        [b.busy, b.ack, i.sclLevel, i.sdaLevel, b.sclDrv.bit, b.sdaDrv.bit, b.cmderr, false]) ∧
    (i.regAddr = .txdata → (outputs b i).regRdata = b.txdata) ∧
    (i.regAddr = .rxdata → (outputs b i).regRdata = b.rxdata) ∧
    (∀ (r : Reg) (v : Byte), i.regWe = false →
      blockStep b { i with regAddr := r, regWdata := v } = blockStep b i)

/-- Writes to STATUS, TXDATA and RXDATA (R67), beside whatever the sequencer does in the same cycle (R209). -/
def Obligations.RegisterWriteEffects : Prop :=
  ∀ (b : Block) (i : Input), i.rst = false → i.regWe = true →
    (i.regAddr = .status →
      blockStep b i =
        { blockStep b { i with regWe := false } with
          cmderr := if i.regWdata.getLsbD 6 then false else b.cmderr }) ∧
    (i.regAddr = .txdata →
      blockStep b i = { blockStep b { i with regWe := false } with txdata := i.regWdata }) ∧
    (i.regAddr = .rxdata → blockStep b i = blockStep b { i with regWe := false })

/-- R204, acceptance, case by case. -/
def Obligations.AcceptanceLoadsPosition : Prop :=
  ∀ (b : Block) (i : Input), i.rst = false → i.regWe = true → i.regAddr = .cmd →
    (b.busy = true →
      blockStep b i = { blockStep b { i with regWe := false } with cmderr := true }) ∧
    (b.busy = false → decodeCommand i.regWdata = none → blockStep b i = { b with cmderr := true }) ∧
    (b.busy = false → i.regWdata = 0x00#8 → blockStep b i = b) ∧
    (b.busy = false → i.regWdata ∈ [0x01#8, 0x02#8, 0x03#8] →
      blockStep b i =
        { b with busy := true, op := i.regWdata.extractLsb' 0 3, ustep := 0#4, bitcnt := 0#4 }) ∧
    (b.busy = false → i.regWdata = 0x04#8 →
      blockStep b i =
        { b with busy := true, op := 4#3, ustep := 0#4, bitcnt := 0#4, shreg := b.txdata }) ∧
    (b.busy = false → i.regWdata ∈ [0x05#8, 0x0D#8] →
      blockStep b i =
        { b with busy := true, op := 5#3, ustep := 0#4, bitcnt := 0#4, shreg := 0x00#8,
                 ackpol := i.regWdata.getLsbD 3 })

/-- R232: the two causes of a rejected command write and their one report. -/
def Obligations.RejectedCommandSetsCmderr : Prop :=
  (∀ (i : Instr) (s : State), s.blk.busy = true → s.envNow.rst = false →
    ∃ t, exec i s = .next t ∧
      t.blk = { blockStep s.blk (inputOf Access.none s.envNow) with cmderr := true } ∧
      t.env = s.env.tail ∧ t.host = s.host ∧
      t.events = s.events ++ cycleEvents s.blk (inputOf Access.none s.envNow)) ∧
  (∀ (s : State) (v : Byte) (rest : List HostOp),
    s.host.prog = .wr .cmd v :: rest → decodeCommand v = none → s.envNow.rst = false →
    ∃ t, step s = .next t ∧
      t.blk = { blockStep s.blk (inputOf Access.none s.envNow) with cmderr := true } ∧
      (s.blk.busy = false → t.blk = { s.blk with cmderr := true } ∧ t.events = s.events)) ∧
  (∀ (b : Block) (i : Input), b.cmderr = true → i.rst = false →
    ¬(i.regWe = true ∧ i.regAddr = .status ∧ i.regWdata.getLsbD 6 = true) → (blockStep b i).cmderr = true) ∧
  (∀ (b : Block) (i : Input) (c : Instr), b.cmderr = true → b.busy = false → i.rst = false →
    i.regWe = true → i.regAddr = .cmd → decodeCommand i.regWdata = some c → c ≠ .nop →
      (blockStep b i).busy = true ∧ (blockStep b i).cmderr = true)

/-- Who writes ACK, RXDATA, TXDATA, CMDERR and ACKPOL, and what (R26 to R29, R33): one formula each for the next
value in any cycle without reset. -/
def Obligations.ResultAndFlagUpdates : Prop :=
  ∀ (b : Block) (i : Input), i.rst = false →
    (blockStep b i).ack =
      (if b.busy = true ∧ b.op = 4#3 ∧ b.ustep = 13#4 then !i.sdaLevel else b.ack) ∧
    (blockStep b i).rxdata =
      (if b.busy = true ∧ b.op = 5#3 ∧ b.ustep = 15#4 then b.shreg else b.rxdata) ∧
    (blockStep b i).txdata =
      (if i.regWe = true ∧ i.regAddr = .txdata then i.regWdata else b.txdata) ∧
    (blockStep b i).cmderr =
      (if i.regWe = true ∧ i.regAddr = .cmd ∧ (b.busy = true ∨ decodeCommand i.regWdata = none) then true
       else if i.regWe = true ∧ i.regAddr = .status ∧ i.regWdata.getLsbD 6 = true then false
       else b.cmderr) ∧
    (blockStep b i).ackpol =
      (if i.regWe = true ∧ i.regAddr = .cmd ∧ b.busy = false ∧
          (i.regWdata = 0x05#8 ∨ i.regWdata = 0x0D#8) then i.regWdata.getLsbD 3
       else b.ackpol)

/-! ### Outputs and lines -/

/-- R208: the four outputs that are functions of the state, `dly_req` by its list of positions. -/
def Obligations.OutputsFollowState : Prop :=
  ∀ (b : Block) (i : Input),
    (outputs b i).sclDriveLow = b.sclDrv.bit ∧
    (outputs b i).sdaDriveLow = b.sdaDrv.bit ∧
    (outputs b i).busy = b.busy ∧
    ((outputs b i).dlyReq = true ↔
      b.busy = true ∧
      (b.op.toNat, b.ustep.toNat) ∈
        [(2, 1), (2, 4), (2, 6), (2, 8), (3, 1), (3, 3), (3, 6), (3, 8),
         (4, 2), (4, 5), (4, 9), (4, 12), (5, 2), (5, 5), (5, 9), (5, 12)])

/-- A wait is one run of `dly_req` = 1: unanswered it goes on, answered it ends and no other wait follows at once
(R61, R62). -/
def Obligations.EveryWaitIsASeparateRun : Prop :=
  ∀ (b : Block) (i : Input), i.rst = false → b.dlyReq = true →
    (blockStep b i).dlyReq = !i.dlyDone

/-- R60: no cycle without reset changes both drive bits; and each drive bit is written by micro-operations of its
own (R21, R22). -/
def Obligations.NoCycleChangesBothLines : Prop :=
  (∀ (b : Block) (i : Input), i.rst = false →
    (blockStep b i).sclDrv = b.sclDrv ∨ (blockStep b i).sdaDrv = b.sdaDrv) ∧
  (∀ (b : Block) (i : Input), i.rst = false → (blockStep b i).sclDrv ≠ b.sclDrv →
    (b.current = some .sclLow ∧ (blockStep b i).sclDrv = .drivenLow) ∨
    (b.current = some .sclRel ∧ (blockStep b i).sclDrv = .released)) ∧
  (∀ (b : Block) (i : Input), i.rst = false → (blockStep b i).sdaDrv ≠ b.sdaDrv →
    (b.current = some .sdaLow ∧ (blockStep b i).sdaDrv = .drivenLow) ∨
    (b.current = some .sdaRel ∧ (blockStep b i).sdaDrv = .released) ∨
    (b.current = some .sdaBit ∧ (blockStep b i).sdaDrv = driveForBit (b.shreg.getLsbD 7)) ∨
    (b.current = some .sdaAck ∧ (blockStep b i).sdaDrv = driveForBit (!b.ackpol)))

/-- Under the environment contract a line the master drives low reads low, and a released line that no other device
pulls reads high (R59, R121, R122). -/
def Obligations.ContractLevels : Prop :=
  ∀ (b : Block) (p : BusPull) (e : EnvCycle), e.keepsContract b p = true →
    (b.sclDrv = .drivenLow → e.sclLevel = false) ∧ (b.sdaDrv = .drivenLow → e.sdaLevel = false) ∧
    (b.sclDrv = .released → p.extSclLow = false → e.sclLevel = true) ∧
    (b.sdaDrv = .released → p.extSdaLow = false → e.sdaLevel = true) ∧
    (p.extSclLow = true → e.sclLevel = false) ∧ (p.extSdaLow = true → e.sdaLevel = false)

/-- The master changes Data only while it drives Clock low, but for the two edges that are the START and the STOP
condition (R130). -/
def Obligations.DataChangesOnlyWithClockLow : Prop :=
  ∀ (b : Block) (i : Input), b.positionOk = true → b.linesOk = true → i.rst = false →
    (blockStep b i).sdaDrv ≠ b.sdaDrv →
    b.sclDrv = .drivenLow ∨
    (b.op = 2#3 ∧ b.ustep = 5#4 ∧ (blockStep b i).sdaDrv = .drivenLow) ∨
    (b.op = 3#3 ∧ b.ustep = 7#4 ∧ (blockStep b i).sdaDrv = .released)

/-- On the wires, with no other device pulling: ustep 5 of START makes the START condition, ustep 7 of STOP the STOP
condition, and no other cycle without reset makes an edge of Data with Clock high (R129, R144, R146). -/
def Obligations.OnlyStartAndStopMakeConditions : Prop :=
  ∀ (b : Block) (i : Input), b.positionOk = true → b.linesOk = true → i.rst = false →
    (b.busy = true → b.op = 2#3 → b.ustep = 5#4 →
      b.wires BusPull.none = (true, true) ∧ (blockStep b i).wires BusPull.none = (true, false)) ∧
    (b.busy = true → b.op = 3#3 → b.ustep = 7#4 →
      b.wires BusPull.none = (true, false) ∧ (blockStep b i).wires BusPull.none = (true, true)) ∧
    ((b.wires BusPull.none).1 = true → ((blockStep b i).wires BusPull.none).1 = true →
      (b.wires BusPull.none).2 ≠ ((blockStep b i).wires BusPull.none).2 →
      b.busy = true ∧ ((b.op = 2#3 ∧ b.ustep = 5#4) ∨ (b.op = 3#3 ∧ b.ustep = 7#4)))

/-- WRITE of a byte, bit by bit (R24, R160, R161): from acceptance the shifter holds the unsent bits of the operand,
and from each SDA_BIT to the SHIFT after it, the Clock-high phase within, Data is driven for bit 7 minus BITCNT. -/
def Obligations.WriteDrivesOperandBits : Prop :=
  (∀ (b : Block) (i : Input), i.rst = false → b.busy = false → i.regWe = true → i.regAddr = .cmd →
    i.regWdata = 0x04#8 → (blockStep b i).sendsByte b.txdata = true) ∧
  (∀ (b : Block) (i : Input) (v : Byte), i.rst = false → b.busy = true → b.positionOk = true →
    b.sendsByte v = true → (blockStep b i).sendsByte v = true)

/-! ### Completion of each command -/

/-- NOP (R140): on a ready block nothing changes but the cycle passing; its byte is 0x00; while busy it is rejected
and sets CMDERR. -/
def Obligations.NopCompletes : Prop :=
  (∀ s : State, s.ready = true →
    exec .nop s = .next { s with env := s.env.tail, cycle := s.cycle + 1 }) ∧
  encode .nop = 0x00#8 ∧
  (∀ s : State, s.blk.busy = true → s.envNow.rst = false →
    ∃ t, exec .nop s = .next t ∧ t.blk.cmderr = true)

/-- BEGIN (R142, R126): from a ready block, whatever the lines, under a waiting host, when the polls are answered:
release Data, release Clock, poll until high; both lines end released and nothing else of the block changes. -/
def Obligations.BeginCompletes : Prop :=
  ∀ (s : State) (e0 : EnvCycle) (es rest : List EnvCycle),
    s.ready = true → s.host.waiting = true → s.env = e0 :: (es ++ rest) →
    answered (unrolled .begin) es = true →
    exec .begin s = .next
      (s.afterCommand { s.blk with sclDrv := .released, sdaDrv := .released, busy := false, op := 0#3,
                                   ustep := 0#4, bitcnt := 0#4 } es rest
        (.drive .data .released :: raiseEvents (es.length - 3)))

/-- START (R144, R145): the sequence of events, both lines driven low at the end, nothing else of the block
changed, from any state of the lines. -/
def Obligations.StartCompletes : Prop :=
  ∀ (s : State) (e0 : EnvCycle) (es rest : List EnvCycle),
    s.ready = true → s.host.waiting = true → s.env = e0 :: (es ++ rest) →
    answered (unrolled .start) es = true →
    exec .start s = .next
      (s.afterCommand { s.blk with sclDrv := .drivenLow, sdaDrv := .drivenLow, busy := false, op := 0#3,
                                   ustep := 0#4, bitcnt := 0#4 } es rest
        ([.drive .data .released, .waitBegin, .waitEnd]
          ++ raiseEvents ((pollCounts 0 (unrolled .start) es).headD 0)
          ++ [.waitBegin, .waitEnd, .drive .data .drivenLow, .waitBegin, .waitEnd,
              .drive .clock .drivenLow, .waitBegin, .waitEnd]))

/-- STOP (R146): the sequence of events, both lines released at the end, nothing else of the block changed, from
any state of the lines. -/
def Obligations.StopCompletes : Prop :=
  ∀ (s : State) (e0 : EnvCycle) (es rest : List EnvCycle),
    s.ready = true → s.host.waiting = true → s.env = e0 :: (es ++ rest) →
    answered (unrolled .stop) es = true →
    exec .stop s = .next
      (s.afterCommand { s.blk with sclDrv := .released, sdaDrv := .released, busy := false, op := 0#3,
                                   ustep := 0#4, bitcnt := 0#4 } es rest
        ([.drive .clock .drivenLow, .waitBegin, .waitEnd, .drive .data .drivenLow, .waitBegin, .waitEnd]
          ++ raiseEvents ((pollCounts 0 (unrolled .stop) es).headD 0)
          ++ [.waitBegin, .waitEnd, .drive .data .released, .waitBegin, .waitEnd]))

/-- WRITE (R160, R162): one Data sample; ACK is its negation; the shifter ends empty, Clock driven low, Data
released; TXDATA and the rest are unchanged; the events are those of the pseudocode for the byte in TXDATA. -/
def Obligations.WriteCompletes : Prop :=
  ∀ (s : State) (e0 : EnvCycle) (es rest : List EnvCycle),
    s.ready = true → s.host.waiting = true → s.env = e0 :: (es ++ rest) →
    answered (unrolled .write) es = true →
    ∃ v : Bool, dataSamples (unrolled .write) es = [v] ∧
    exec .write s = .next
      (s.afterCommand { s.blk with sclDrv := .drivenLow, sdaDrv := .released, shreg := 0x00#8, ack := !v,
                                   busy := false, op := 0#3, ustep := 0#4, bitcnt := 0#4 } es rest
        (s.blk.runOperation .write (pollCounts 0 (unrolled .write) es) [v]).events)

/-- READ (R164): eight Data samples, the first into bit 7 of RXDATA and the eighth into bit 0, for both values of
A; Clock ends driven low, Data released; ACK, TXDATA and the rest are unchanged; the events are those of the
pseudocode. -/
def Obligations.ReadCompletes : Prop :=
  ∀ (a : Bool) (s : State) (e0 : EnvCycle) (es rest : List EnvCycle),
    s.ready = true → s.host.waiting = true → s.env = e0 :: (es ++ rest) →
    answered (unrolled (.read a)) es = true →
    ∃ v : Byte, (dataSamples (unrolled (.read a)) es).length = 8 ∧
    (∀ k, k < 8 → (dataSamples (unrolled (.read a)) es)[k]? = some (v.getLsbD (7 - k))) ∧
    exec (.read a) s = .next
      (s.afterCommand { s.blk with sclDrv := .drivenLow, sdaDrv := .released, shreg := v, rxdata := v, ackpol := a,
                                   busy := false, op := 0#3, ustep := 0#4, bitcnt := 0#4 } es rest
        (s.blk.runOperation (.read a) (pollCounts 0 (unrolled (.read a)) es)
          (dataSamples (unrolled (.read a)) es)).events)

/-! ### Frames and ends -/

/-- Frame of NOP, BEGIN, START and STOP, finished or still in progress, under a waiting host without reset: they
leave SHREG, TXDATA, RXDATA, ACK, ACKPOL, CMDERR and the host alone, and NOP the whole block (R28, R205). -/
def Obligations.ConditionCommandsFrame : Prop :=
  ∀ (i : Instr) (s : State), i = .nop ∨ i = .begin ∨ i = .start ∨ i = .stop →
    s.ready = true → s.noReset = true → s.host.waiting = true →
    ∃ t, exec i s = .next t ∧
      t.blk.shreg = s.blk.shreg ∧ t.blk.txdata = s.blk.txdata ∧ t.blk.rxdata = s.blk.rxdata ∧
      t.blk.ack = s.blk.ack ∧ t.blk.ackpol = s.blk.ackpol ∧ t.blk.cmderr = s.blk.cmderr ∧
      t.host = s.host ∧ (i = .nop → t.blk = s.blk)

/-- Frame of WRITE and READ, finished or still in progress, under a waiting host without reset: WRITE leaves
TXDATA, RXDATA, ACKPOL, CMDERR alone; READ leaves TXDATA, ACK, CMDERR alone, and RXDATA until it has finished. -/
def Obligations.TransferCommandsFrame : Prop :=
  ∀ s : State, s.ready = true → s.noReset = true → s.host.waiting = true →
    (∃ t, exec .write s = .next t ∧
      t.blk.txdata = s.blk.txdata ∧ t.blk.rxdata = s.blk.rxdata ∧ t.blk.ackpol = s.blk.ackpol ∧
      t.blk.cmderr = s.blk.cmderr ∧ t.host = s.host) ∧
    (∀ a : Bool, ∃ t, exec (.read a) s = .next t ∧
      t.blk.txdata = s.blk.txdata ∧ t.blk.ack = s.blk.ack ∧ t.blk.ackpol = a ∧
      t.blk.cmderr = s.blk.cmderr ∧ t.host = s.host ∧
      (t.blk.busy = true → t.blk.rxdata = s.blk.rxdata))

/-- The lines at the end of each command, whatever they were at its start, whatever the host does meanwhile, with
any stretching; BEGIN and STOP have also sampled Clock high (R38). -/
def Obligations.LinesAtCommandEnd : Prop :=
  ∀ (i : Instr) (s t : State), s.ready = true → s.noReset = true → exec i s = .next t → t.blk.busy = false →
    (i = .begin ∨ i = .stop → t.blk.sclDrv = .released ∧ t.blk.sdaDrv = .released ∧
      ∃ evs, t.events = s.events ++ evs ∧ Event.sampleScl true ∈ evs) ∧
    (i = .start → t.blk.sclDrv = .drivenLow ∧ t.blk.sdaDrv = .drivenLow) ∧
    ((i = .write ∨ ∃ a, i = .read a) → t.blk.sclDrv = .drivenLow ∧ t.blk.sdaDrv = .released) ∧
    (i = .nop → t.blk.sclDrv = s.blk.sclDrv ∧ t.blk.sdaDrv = s.blk.sdaDrv)

/-- A command that has finished was answered: no command but NOP ends before every wait was answered and every poll
read high, in the order of its micro-program (R127, R141, R261: no timeout, no cancellation). -/
def Obligations.FinishedCommandWasAnswered : Prop :=
  ∀ (i : Instr) (s t : State), i ≠ .nop → s.ready = true → s.noReset = true → exec i s = .next t →
    t.blk.busy = false →
    ∃ e0 es, s.env = e0 :: (es ++ t.env) ∧ answered (unrolled i) es = true

/-- A Clock held low keeps a poll waiting for any number of steps, whatever the host does: the block stays where it
is but for TXDATA and CMDERR, and every step is one more sample that reads low (R127, R237). -/
def Obligations.ClockHeldLowNeverEnds : Prop :=
  ∀ (n : Nat) (s : State), s.blk.current = some .sclPoll → n ≤ s.env.length →
    (∀ e ∈ s.env, e.rst = false ∧ e.sclLevel = false) →
    ∃ t, steps n s = .next t ∧
      t.blk = { s.blk with txdata := t.blk.txdata, cmderr := t.blk.cmderr } ∧
      t.blk.current = some .sclPoll ∧
      t.events = s.events ++ List.replicate n (.sampleScl false)

/-! ### The two levels -/

/-- R210: every command, answered in the end and not reset, whatever the host does meanwhile, makes exactly the
events of the operation-level pseudocode on the same samples, and ends with the same lines, ACK and RXDATA. -/
def Obligations.CycleLevelMeetsOperationLevel : Prop :=
  ∀ (i : Instr) (s : State) (e0 : EnvCycle) (es rest : List EnvCycle),
    s.ready = true → s.env = e0 :: (es ++ rest) → answered (unrolled i) es = true →
    ∃ t, exec i s = .next t ∧ t.blk.busy = false ∧ t.env = rest ∧
      let o := s.blk.runOperation i (pollCounts 0 (unrolled i) es) (dataSamples (unrolled i) es)
      t.events = s.events ++ o.events ∧ t.blk.sclDrv = o.scl ∧ t.blk.sdaDrv = o.sda ∧
      t.blk.ack = o.ack ∧ t.blk.rxdata = o.rxdata

/-- Every run of the operation level is one of the cycle level: for any number of low polls at each clock raise of a
command's pseudocode and any Data samples there are answers on which `exec`, from any idle block and whatever the host
does, finishes the command with exactly the events, the lines, ACK and RXDATA of that run (R126: k low polls take
k + 1 samples; R210). -/
def Obligations.EveryOperationRunIsRealised : Prop :=
  ∀ (i : Instr) (s : State) (polls : List Nat) (data : List Bool),
    s.blk.busy = false →
    polls.length = (opProgram s.blk.txdata i).count .sclRaise →
    data.length = (opProgram s.blk.txdata i).countP Prim.samplesData →
    ∃ es, answered (unrolled i) es = true ∧ pollCounts 0 (unrolled i) es = polls ∧
      dataSamples (unrolled i) es = data ∧ es.length = (unrolled i).length + polls.sum ∧
      ∀ (e0 : EnvCycle) (rest : List EnvCycle), e0.rst = false →
        ∃ t, exec i { s with env := e0 :: (es ++ rest) } = .next t ∧ t.blk.busy = false ∧ t.env = rest ∧
          let o := s.blk.runOperation i polls data
          t.events = s.events ++ o.events ∧ t.blk.sclDrv = o.scl ∧ t.blk.sdaDrv = o.sda ∧
          t.blk.ack = o.ack ∧ t.blk.rxdata = o.rxdata

/-- The counts of R148 and R170: line drives, waits, clock raises, Data samples, micro-operations. -/
def Obligations.MicroOperationCounts : Prop :=
  let drives := fun u : MicroOp => u ∈ [.sclLow, .sclRel, .sdaLow, .sdaRel, .sdaBit, .sdaAck]
  let counts := fun us : List MicroOp =>
    (us.countP (fun u => drives u), us.count .wait, us.count .sclPoll,
     us.countP MicroOp.samplesData, us.length)
  counts (unrolled .nop) = (0, 0, 0, 0, 0) ∧
  counts (unrolled .begin) = (2, 0, 1, 0, 3) ∧
  counts (unrolled .start) = (4, 4, 1, 0, 9) ∧
  counts (unrolled .stop) = (4, 4, 1, 0, 9) ∧
  counts (unrolled .write) = (28, 18, 9, 1, 64) ∧
  ∀ a, counts (unrolled (.read a)) = (22, 18, 9, 8, 58)

/-- R165: the shifter's step, and eight of them from any start give the byte of the eight samples, first sample
first. -/
def Obligations.ShifterAssemblesByte : Prop :=
  (∀ (v : Byte) (s : Bool), (shiftIn v s).toNat = (2 * v.toNat) % 256 + s.toNat) ∧
  (∀ (v : Byte) (s1 s2 s3 s4 s5 s6 s7 s8 : Bool),
    ([s1, s2, s3, s4, s5, s6, s7, s8].foldl shiftIn v).toNat =
      s1.toNat * 128 + s2.toNat * 64 + s3.toNat * 32 + s4.toNat * 16 + s5.toNat * 8 + s6.toNat * 4
        + s7.toNat * 2 + s8.toNat)

/-! ### Invariants -/

/-- The reset state meets the invariant: the position (R37) and the lines, both from the reset values of R251, and the
canonical form of host memory, which is empty at reset by the model's own choice (log entries 12 and 19). -/
def Obligations.ResetMeetsInvariant : Prop := State.reset.wf = true

/-- Every step keeps the invariant: R37 (a) to (c), the drive state of the lines at each position, and the canonical
form of host memory (log entry 19). -/
def Obligations.StepKeepsInvariant : Prop :=
  ∀ s t : State, s.wf = true → step s = .next t → t.wf = true

/-- R37: what the invariant says of the position, spelled out, and (d): the lines change only while BUSY = 1 or at
reset. With ResetMeetsInvariant and StepKeepsInvariant it holds of every reachable state. -/
def Obligations.InvariantSaysLegalPosition : Prop :=
  ∀ b : Block, b.positionOk = true →
    (b.busy = false → b.op = 0#3 ∧ b.ustep = 0#4 ∧ b.bitcnt = 0#4) ∧
    (b.busy = true →
      (b.op = 1#3 ∧ b.ustep.toNat ≤ 2) ∨ (b.op = 2#3 ∧ b.ustep.toNat ≤ 8) ∨ (b.op = 3#3 ∧ b.ustep.toNat ≤ 8) ∨
      (b.op = 4#3 ∧ b.ustep.toNat ≤ 14) ∨ (b.op = 5#3 ∧ b.ustep.toNat ≤ 15)) ∧
    b.bitcnt.toNat ≤ 8 ∧
    (b.bitcnt = 8#4 → (b.op = 4#3 ∨ b.op = 5#3) ∧ 7 ≤ b.ustep.toNat) ∧
    (0 < b.bitcnt.toNat → b.op = 4#3 ∨ b.op = 5#3) ∧
    (∀ i : Input, (blockStep b i).sclDrv ≠ b.sclDrv ∨ (blockStep b i).sdaDrv ≠ b.sdaDrv →
      b.busy = true ∨ i.rst = true)

/-! ### Independence -/

/-- What a command does on the lines depends on the command, its operand TXDATA and the answers alone: two idle
machines that share those make the same events, take the same answers and are busy alike, whatever else earlier
commands left in the block (R12, R24; conflict C7). -/
def Obligations.CommandsIgnoreLeftovers : Prop :=
  ∀ (i : Instr) (s s' : State), s.blk.busy = false → s'.blk.busy = false → s'.blk.txdata = s.blk.txdata →
    s'.env = s.env → s.envNow.rst = s'.envNow.rst → s.host.waiting = true → s'.host.waiting = true →
    ∃ t t' evs, exec i s = .next t ∧ exec i s' = .next t' ∧
      t.events = s.events ++ evs ∧ t'.events = s'.events ++ evs ∧
      t'.env = t.env ∧ t'.blk.busy = t.blk.busy

/-- R167: READ with ACK and READ with NACK on the same answers receive the same byte and are alike at every point;
finished, their events differ in one place, what the master drives on Data before the ninth clock. -/
def Obligations.ReadByteIgnoresPolicy : Prop :=
  ∀ s : State, s.ready = true → s.noReset = true → s.host.waiting = true →
    ∃ t1 t0, exec (.read true) s = .next t1 ∧ exec (.read false) s = .next t0 ∧
      t1.blk.rxdata = t0.blk.rxdata ∧ t1.blk.shreg = t0.blk.shreg ∧ t1.blk.busy = t0.blk.busy ∧
      t1.blk.ustep = t0.blk.ustep ∧ t1.blk.sclDrv = t0.blk.sclDrv ∧ t1.env = t0.env ∧
      (t0.blk.busy = false → t1.blk.sdaDrv = t0.blk.sdaDrv ∧
        ∃ pre post, t1.events = pre ++ [.drive .data .drivenLow] ++ post ∧
          t0.events = pre ++ [.drive .data .released] ++ post)

/-- R78: a write to TXDATA while a command runs is not seen by it: the block goes on as without the write, with the
new TXDATA. -/
def Obligations.RunningCommandIgnoresTxdata : Prop :=
  ∀ (b : Block) (i : Input) (w : Byte), b.busy = true → i.rst = false →
    blockStep { b with txdata := w } i =
      { blockStep b i with
        txdata := if i.regWe = true ∧ i.regAddr = .txdata then i.regWdata else w } ∧
    cycleEvents { b with txdata := w } i = cycleEvents b i

/-! ### Sequences of commands -/

/-- R147: START and then STOP from idle lines: the block ends as it began, no Data sample is made, Clock makes one
low pulse and Data falls and rises once. -/
def Obligations.StartThenStopIsIdleToIdle : Prop :=
  ∀ (s : State) (e0 e1 : EnvCycle) (es es' rest : List EnvCycle),
    s.ready = true → s.host.waiting = true → s.blk.positionOk = true →
    s.blk.sclDrv = .released → s.blk.sdaDrv = .released →
    s.env = e0 :: (es ++ e1 :: (es' ++ rest)) → e1.rst = false →
    answered (unrolled .start) es = true → answered (unrolled .stop) es' = true →
    ∃ t u evs, exec .start s = .next t ∧ exec .stop t = .next u ∧ u.blk = s.blk ∧ u.env = rest ∧
      u.events = s.events ++ evs ∧
      (∀ v, Event.sampleSda v ∉ evs) ∧
      evs.filter (fun e => e = .drive .clock .drivenLow ∨ e = .drive .clock .released
          ∨ e = .drive .data .drivenLow ∨ e = .drive .data .released) =
        [.drive .data .released, .drive .clock .released, .drive .data .drivenLow, .drive .clock .drivenLow,
         .drive .clock .drivenLow, .drive .data .drivenLow, .drive .clock .released, .drive .data .released]

/-- R143: BEGIN twice leaves the block as BEGIN once does, from any state of the lines; the second releases lines
already released, so it makes no edge, and polls Clock. That BEGIN releases Data before Clock and has no wait, which
the last clause fixes, is the spec's decision D11 (R142), log entry 14. -/
def Obligations.BeginIsIdempotent : Prop :=
  ∀ (s : State) (e0 e1 : EnvCycle) (es es' rest : List EnvCycle),
    s.ready = true → s.host.waiting = true →
    s.env = e0 :: (es ++ e1 :: (es' ++ rest)) → e1.rst = false →
    answered (unrolled .begin) es = true → answered (unrolled .begin) es' = true →
    ∃ t u, exec .begin s = .next t ∧ exec .begin t = .next u ∧
      u.blk = t.blk ∧ t.blk.sclDrv = .released ∧ t.blk.sdaDrv = .released ∧ t.blk.busy = false ∧
      ∃ k, u.events = t.events ++ (.drive .data .released :: raiseEvents k)

/-! ### The host -/

/-- WAITIDLE keeps the host while BUSY reads 1 and lets it go on at the first cycle in which BUSY reads 0 (R100).
That the read which shows 0 takes a cycle is log entry 7; that in a cycle with `rst` WAITIDLE looks at the BUSY before
the reset, and is used up when that is 0, is log entry 11: the model's choices. -/
def Obligations.WaitIdleBlocksWhileBusy : Prop :=
  ∀ (s : State) (rest : List HostOp), s.host.prog = .waitIdle :: rest →
    ∃ t, step s = .next t ∧
      (s.blk.busy = true → t.host = s.host) ∧
      (s.blk.busy = false → t.host = { s.host with prog := rest } ∧ (s.envNow.rst = false → t.blk = s.blk))

/-- WRITEB v (R99, R101): the byte goes to TXDATA, WRITE runs, and bit 1 of the STATUS value the host reads at the
end is the acknowledgment, with bit 0 clear. -/
def Obligations.WritebReturnsAck : Prop :=
  ∀ (s : State) (v : Byte) (prog : List HostOp) (x e0 w r : EnvCycle) (es rest : List EnvCycle),
    s.host.prog = (Pseudo.writeB v).expand ++ prog → s.blk.busy = false →
    s.env = x :: e0 :: (es ++ w :: r :: rest) → s.noReset = true → answered (unrolled .write) es = true →
    ∃ t q ack, steps 4 s = .next t ∧ t.host.prog = prog ∧ t.host.reads = q :: s.host.reads ∧
      q.getLsbD 0 = false ∧ q.getLsbD 1 = ack ∧ t.blk.ack = ack ∧
      dataSamples (unrolled .write) es = [!ack] ∧ t.blk.txdata = v ∧ t.env = rest

/-- READB (R99, R101): the value the host reads at the end is the byte received. -/
def Obligations.ReadbReturnsByte : Prop :=
  ∀ (s : State) (a : Bool) (prog : List HostOp) (e0 w r : EnvCycle) (es rest : List EnvCycle),
    s.host.prog = (Pseudo.readB a).expand ++ prog → s.blk.busy = false →
    s.env = e0 :: (es ++ w :: r :: rest) → s.noReset = true → answered (unrolled (.read a)) es = true →
    ∃ t, steps 3 s = .next t ∧ t.host.prog = prog ∧
      t.host.reads = byteOfSamples (dataSamples (unrolled (.read a)) es) :: s.host.reads ∧ t.env = rest

/-! ### SCAN -/

/-- For a capacity of at least 1, `SCAN buf, cap` stores the first `cap` devices that answer in the cells from `buf`
on, in ascending order of address, its count is the number stored, and every other cell of host memory is as before
(R181, R182; conflict C5). -/
def Obligations.ScanStoresFirstAnswers : Prop :=
  ∀ (answers : DeviceAddress → Bool) (buf cap : Nat) (m : ScanMemory), scanCapacityWellFormed cap = true →
    let found := ((scanCandidates.map (BitVec.ofNat 7)).filter answers).take cap
    (scanResult answers buf cap m).count = found.length ∧
    ∀ c, HostMemory.read (scanResult answers buf cap m).cells c =
      if buf ≤ c ∧ c < buf + found.length then found[c - buf]? else HostMemory.read m.cells c

/-- Capacity 0, by the spec's decision D18 (log entry 10): nothing is stored, the count is 1 if any device answers,
else 0. -/
def Obligations.ScanOfCapacityZero : Prop :=
  ∀ (answers : DeviceAddress → Bool) (buf : Nat) (m : ScanMemory),
    (scanResult answers buf 0 m).cells = m.cells ∧
    (scanResult answers buf 0 m).count =
      (if (scanCandidates.map (BitVec.ofNat 7)).any answers then 1 else 0)

/-- R183: the candidates are 8 to 119 ascending, the probe bytes are the write-direction address bytes, even, from
0x10 to 0xEE, and the stored addresses are ascending and distinct. -/
def Obligations.ScanCandidatesAndProbeBytes : Prop :=
  scanCandidates = List.range' 8 112 ∧
  scanCandidates.map (fun a => (probeByte a).toNat) = List.range' 16 112 2 ∧
  (∀ a ∈ scanCandidates, probeByte a = addressByte (BitVec.ofNat 7 a) false) ∧
  probeByte 8 = 0x10#8 ∧ probeByte 119 = 0xEE#8 ∧
  (∀ (answers : DeviceAddress → Bool) (buf cap : Nat) (m : ScanMemory) (j k : Nat),
    j < k → k < min (scanResult answers buf cap m).count cap →
    ∃ x y, HostMemory.read (scanResult answers buf cap m).cells (buf + j) = some x ∧
      HostMemory.read (scanResult answers buf cap m).cells (buf + k) = some y ∧ x.toNat < y.toNat)

/-- The host's test at the end of a round is one turn of R181's loop: it goes on with the next candidate, or the
loop is over, with SCAN's memory as the loop leaves it. -/
def Obligations.HostScanTestIsOneLoopTurn : Prop :=
  ∀ (h : HostAgent) (buf cap a : Nat) (prog : List HostOp) (r : Byte) (answers : DeviceAddress → Bool),
    h.prog = .scanTest buf cap a :: prog → 8 ≤ a → a ≤ 119 → h.lastAck = answers (BitVec.ofNat 7 a) →
    (((h.next r).prog = .scanProbe buf cap (a + 1) :: prog ∧ a < 119 ∧
        scanLoop answers buf cap (List.range' a (120 - a)) h.scan =
          scanLoop answers buf cap (List.range' (a + 1) (119 - a)) (h.next r).scan) ∨
     ((h.next r).prog = prog ∧
        scanLoop answers buf cap (List.range' a (120 - a)) h.scan = (h.next r).scan))

/-- One probe of SCAN by the host (R181, R184): START, WRITE of the address byte, STOP and the settle delay bring the
host to the test with the acknowledgment of this probe, the bus idle, SCAN's memory untouched. -/
def Obligations.ScanProbeRound : Prop :=
  ∀ (s : State) (buf cap a : Nat) (prog : List HostOp) (p0 e1 w1 x e2 w2 r e3 : EnvCycle)
    (es1 es2 es3 rest : List EnvCycle),
    s.host.prog = .scanProbe buf cap a :: prog → s.blk.busy = false → s.noReset = true →
    s.env = p0 :: e1 :: (es1 ++ w1 :: x :: e2 :: (es2 ++ w2 :: r :: e3 :: (es3 ++ rest))) →
    answered (unrolled .start) es1 = true → answered (unrolled .write) es2 = true →
    answered (unrolled .stop) es3 = true →
    ∃ n t ack, steps n s = .next t ∧ t.host.prog = .scanTest buf cap a :: prog ∧
      dataSamples (unrolled .write) es2 = [!ack] ∧ t.host.lastAck = ack ∧ t.blk.ack = ack ∧
      t.host.scan = s.host.scan ∧ t.blk.busy = false ∧ t.blk.txdata = probeByte a ∧
      t.blk.sclDrv = .released ∧ t.blk.sdaDrv = .released

/-- The host's statement `SCAN buf, cap`: it clears the count, leaves every cell of host memory and goes on with the
probe of address 8 (R181, R183). That this takes a cycle of its own is log entry 8, that it is used up in a cycle with
`rst` log entry 11. -/
def Obligations.ScanStartsAtFirstCandidate : Prop :=
  ∀ (s : State) (buf cap : Nat) (prog : List HostOp), s.host.prog = .scan buf cap :: prog →
    ∃ t, step s = .next t ∧
      t.host = { prog := .scanProbe buf cap 8 :: prog, reads := s.host.reads,
                 scan := { count := 0, cells := s.host.scan.cells } } ∧
      (s.envNow.rst = false → s.blk.busy = false → t.blk = s.blk)

/-- The machine's SCAN is the loop of R181: from the statement `SCAN buf, cap` on an idle block, with answers laid out
for a round of each candidate, the machine reaches the end of SCAN with host memory as `scanResult` says for the
devices that answered; it has used the answers of `k` rounds and no more, where `k` is 112, or the round in which the
count reaches `cap` (R182); the lines are released. Capacity 0 runs as decision D18 says (log entry 10); the layout of
a round in cycles is log entries 7, 8 and 9. -/
def Obligations.ScanRunGivesScanResult : Prop :=
  ∀ (s : State) (buf cap : Nat) (prog : List HostOp) (e : EnvCycle) (rounds : List ScanRound)
    (rest : List EnvCycle) (answers : DeviceAddress → Bool),
    s.host.prog = .scan buf cap :: prog → s.blk.busy = false → s.noReset = true →
    s.env = e :: (rounds.flatMap ScanRound.script ++ rest) →
    rounds.length = 112 → rounds.all ScanRound.complete = true →
    (∀ j (h : j < rounds.length), rounds[j].ack = answers (BitVec.ofNat 7 (8 + j))) →
    ∃ n t k, steps n s = .next t ∧ t.host.prog = prog ∧
      t.host.scan = scanResult answers buf cap s.host.scan ∧
      t.env = (rounds.drop k).flatMap ScanRound.script ++ rest ∧ k ≤ 112 ∧
      (∀ j, j < k → (rounds.take j).countP ScanRound.ack < max cap 1) ∧
      (k = 112 ∨ max cap 1 ≤ (rounds.take k).countP ScanRound.ack) ∧
      t.blk.busy = false ∧ t.blk.sclDrv = .released ∧ t.blk.sdaDrv = .released ∧
      t.blk.txdata = addressByte (BitVec.ofNat 7 (7 + k)) false

/-- Host memory changes in a cycle only where SCAN stores a found address, while there is room (R181: what SCAN writes
is `buf[0 .. min(count, cap) - 1]`). That `buf[count]` is the cell `buf + count`, and that nothing of the host but SCAN
stores in these cells, are the model's choices, log entry 19. -/
def Obligations.OnlyScanStoresInHostMemory : Prop :=
  ∀ (s : State) (c : Nat),
    HostMemory.read (tick s).host.scan.cells c ≠ HostMemory.read s.host.scan.cells c →
    ∃ buf cap a rest, s.host.prog = .scanTest buf cap a :: rest ∧ s.host.lastAck = true ∧
      s.host.scan.count < cap ∧ c = buf + s.host.scan.count ∧
      HostMemory.read (tick s).host.scan.cells c = some (BitVec.ofNat 7 a)
end

