-- ==== Sys2Proof/Laws/State.lean ====
section
/-! SUPPORT. One lemma for each field of each shared update of the block, and for each field of a cycle, all true by
unfolding once, so that no later proof unfolds a record update. -/

namespace Sys2Proof.Machine

section BlockUpdates

variable (b : Block)

@[simp] theorem driveScl_sclDrv (d : LineDrive) : (b.driveScl d).sclDrv = d := rfl
@[simp] theorem driveScl_sdaDrv (d : LineDrive) : (b.driveScl d).sdaDrv = b.sdaDrv := rfl
@[simp] theorem driveScl_shreg (d : LineDrive) : (b.driveScl d).shreg = b.shreg := rfl
@[simp] theorem driveScl_bitcnt (d : LineDrive) : (b.driveScl d).bitcnt = b.bitcnt := rfl
@[simp] theorem driveScl_txdata (d : LineDrive) : (b.driveScl d).txdata = b.txdata := rfl
@[simp] theorem driveScl_rxdata (d : LineDrive) : (b.driveScl d).rxdata = b.rxdata := rfl
@[simp] theorem driveScl_ack (d : LineDrive) : (b.driveScl d).ack = b.ack := rfl
@[simp] theorem driveScl_ackpol (d : LineDrive) : (b.driveScl d).ackpol = b.ackpol := rfl
@[simp] theorem driveScl_busy (d : LineDrive) : (b.driveScl d).busy = b.busy := rfl
@[simp] theorem driveScl_op (d : LineDrive) : (b.driveScl d).op = b.op := rfl
@[simp] theorem driveScl_ustep (d : LineDrive) : (b.driveScl d).ustep = b.ustep := rfl
@[simp] theorem driveScl_cmderr (d : LineDrive) : (b.driveScl d).cmderr = b.cmderr := rfl

@[simp] theorem driveSda_sclDrv (d : LineDrive) : (b.driveSda d).sclDrv = b.sclDrv := rfl
@[simp] theorem driveSda_sdaDrv (d : LineDrive) : (b.driveSda d).sdaDrv = d := rfl
@[simp] theorem driveSda_shreg (d : LineDrive) : (b.driveSda d).shreg = b.shreg := rfl
@[simp] theorem driveSda_bitcnt (d : LineDrive) : (b.driveSda d).bitcnt = b.bitcnt := rfl
@[simp] theorem driveSda_txdata (d : LineDrive) : (b.driveSda d).txdata = b.txdata := rfl
@[simp] theorem driveSda_rxdata (d : LineDrive) : (b.driveSda d).rxdata = b.rxdata := rfl
@[simp] theorem driveSda_ack (d : LineDrive) : (b.driveSda d).ack = b.ack := rfl
@[simp] theorem driveSda_ackpol (d : LineDrive) : (b.driveSda d).ackpol = b.ackpol := rfl
@[simp] theorem driveSda_busy (d : LineDrive) : (b.driveSda d).busy = b.busy := rfl
@[simp] theorem driveSda_op (d : LineDrive) : (b.driveSda d).op = b.op := rfl
@[simp] theorem driveSda_ustep (d : LineDrive) : (b.driveSda d).ustep = b.ustep := rfl
@[simp] theorem driveSda_cmderr (d : LineDrive) : (b.driveSda d).cmderr = b.cmderr := rfl

@[simp] theorem shiftBit_sclDrv (s : Bool) : (b.shiftBit s).sclDrv = b.sclDrv := rfl
@[simp] theorem shiftBit_sdaDrv (s : Bool) : (b.shiftBit s).sdaDrv = b.sdaDrv := rfl
@[simp] theorem shiftBit_shreg (s : Bool) : (b.shiftBit s).shreg = shiftIn b.shreg s := rfl
@[simp] theorem shiftBit_bitcnt (s : Bool) : (b.shiftBit s).bitcnt = b.bitcnt + 1#4 := rfl
@[simp] theorem shiftBit_txdata (s : Bool) : (b.shiftBit s).txdata = b.txdata := rfl
@[simp] theorem shiftBit_rxdata (s : Bool) : (b.shiftBit s).rxdata = b.rxdata := rfl
@[simp] theorem shiftBit_ack (s : Bool) : (b.shiftBit s).ack = b.ack := rfl
@[simp] theorem shiftBit_ackpol (s : Bool) : (b.shiftBit s).ackpol = b.ackpol := rfl
@[simp] theorem shiftBit_busy (s : Bool) : (b.shiftBit s).busy = b.busy := rfl
@[simp] theorem shiftBit_op (s : Bool) : (b.shiftBit s).op = b.op := rfl
@[simp] theorem shiftBit_ustep (s : Bool) : (b.shiftBit s).ustep = b.ustep := rfl
@[simp] theorem shiftBit_cmderr (s : Bool) : (b.shiftBit s).cmderr = b.cmderr := rfl

@[simp] theorem latchRx_sclDrv : (b.latchRx).sclDrv = b.sclDrv := rfl
@[simp] theorem latchRx_sdaDrv : (b.latchRx).sdaDrv = b.sdaDrv := rfl
@[simp] theorem latchRx_shreg : (b.latchRx).shreg = b.shreg := rfl
@[simp] theorem latchRx_bitcnt : (b.latchRx).bitcnt = b.bitcnt := rfl
@[simp] theorem latchRx_txdata : (b.latchRx).txdata = b.txdata := rfl
@[simp] theorem latchRx_rxdata : (b.latchRx).rxdata = b.shreg := rfl
@[simp] theorem latchRx_ack : (b.latchRx).ack = b.ack := rfl
@[simp] theorem latchRx_ackpol : (b.latchRx).ackpol = b.ackpol := rfl
@[simp] theorem latchRx_busy : (b.latchRx).busy = b.busy := rfl
@[simp] theorem latchRx_op : (b.latchRx).op = b.op := rfl
@[simp] theorem latchRx_ustep : (b.latchRx).ustep = b.ustep := rfl
@[simp] theorem latchRx_cmderr : (b.latchRx).cmderr = b.cmderr := rfl

@[simp] theorem finish_sclDrv : (b.finish).sclDrv = b.sclDrv := rfl
@[simp] theorem finish_sdaDrv : (b.finish).sdaDrv = b.sdaDrv := rfl
@[simp] theorem finish_shreg : (b.finish).shreg = b.shreg := rfl
@[simp] theorem finish_bitcnt : (b.finish).bitcnt = 0#4 := rfl
@[simp] theorem finish_txdata : (b.finish).txdata = b.txdata := rfl
@[simp] theorem finish_rxdata : (b.finish).rxdata = b.rxdata := rfl
@[simp] theorem finish_ack : (b.finish).ack = b.ack := rfl
@[simp] theorem finish_ackpol : (b.finish).ackpol = b.ackpol := rfl
@[simp] theorem finish_busy : (b.finish).busy = false := rfl
@[simp] theorem finish_op : (b.finish).op = 0#3 := rfl
@[simp] theorem finish_ustep : (b.finish).ustep = 0#4 := rfl
@[simp] theorem finish_cmderr : (b.finish).cmderr = b.cmderr := rfl

@[simp] theorem startCommand_sclDrv (opc : BitVec 3) : (b.startCommand opc).sclDrv = b.sclDrv := rfl
@[simp] theorem startCommand_sdaDrv (opc : BitVec 3) : (b.startCommand opc).sdaDrv = b.sdaDrv := rfl
@[simp] theorem startCommand_shreg (opc : BitVec 3) : (b.startCommand opc).shreg = b.shreg := rfl
@[simp] theorem startCommand_bitcnt (opc : BitVec 3) : (b.startCommand opc).bitcnt = 0#4 := rfl
@[simp] theorem startCommand_txdata (opc : BitVec 3) : (b.startCommand opc).txdata = b.txdata := rfl
@[simp] theorem startCommand_rxdata (opc : BitVec 3) : (b.startCommand opc).rxdata = b.rxdata := rfl
@[simp] theorem startCommand_ack (opc : BitVec 3) : (b.startCommand opc).ack = b.ack := rfl
@[simp] theorem startCommand_ackpol (opc : BitVec 3) : (b.startCommand opc).ackpol = b.ackpol := rfl
@[simp] theorem startCommand_busy (opc : BitVec 3) : (b.startCommand opc).busy = true := rfl
@[simp] theorem startCommand_op (opc : BitVec 3) : (b.startCommand opc).op = opc := rfl
@[simp] theorem startCommand_ustep (opc : BitVec 3) : (b.startCommand opc).ustep = 0#4 := rfl
@[simp] theorem startCommand_cmderr (opc : BitVec 3) : (b.startCommand opc).cmderr = b.cmderr := rfl

@[simp] theorem captureWriteOperand_sclDrv : (b.captureWriteOperand).sclDrv = b.sclDrv := rfl
@[simp] theorem captureWriteOperand_sdaDrv : (b.captureWriteOperand).sdaDrv = b.sdaDrv := rfl
@[simp] theorem captureWriteOperand_shreg : (b.captureWriteOperand).shreg = b.txdata := rfl
@[simp] theorem captureWriteOperand_bitcnt : (b.captureWriteOperand).bitcnt = b.bitcnt := rfl
@[simp] theorem captureWriteOperand_txdata : (b.captureWriteOperand).txdata = b.txdata := rfl
@[simp] theorem captureWriteOperand_rxdata : (b.captureWriteOperand).rxdata = b.rxdata := rfl
@[simp] theorem captureWriteOperand_ack : (b.captureWriteOperand).ack = b.ack := rfl
@[simp] theorem captureWriteOperand_ackpol : (b.captureWriteOperand).ackpol = b.ackpol := rfl
@[simp] theorem captureWriteOperand_busy : (b.captureWriteOperand).busy = b.busy := rfl
@[simp] theorem captureWriteOperand_op : (b.captureWriteOperand).op = b.op := rfl
@[simp] theorem captureWriteOperand_ustep : (b.captureWriteOperand).ustep = b.ustep := rfl
@[simp] theorem captureWriteOperand_cmderr : (b.captureWriteOperand).cmderr = b.cmderr := rfl

@[simp] theorem captureReadOperand_sclDrv (a : Bool) : (b.captureReadOperand a).sclDrv = b.sclDrv := rfl
@[simp] theorem captureReadOperand_sdaDrv (a : Bool) : (b.captureReadOperand a).sdaDrv = b.sdaDrv := rfl
@[simp] theorem captureReadOperand_shreg (a : Bool) : (b.captureReadOperand a).shreg = 0x00#8 := rfl
@[simp] theorem captureReadOperand_bitcnt (a : Bool) : (b.captureReadOperand a).bitcnt = b.bitcnt := rfl
@[simp] theorem captureReadOperand_txdata (a : Bool) : (b.captureReadOperand a).txdata = b.txdata := rfl
@[simp] theorem captureReadOperand_rxdata (a : Bool) : (b.captureReadOperand a).rxdata = b.rxdata := rfl
@[simp] theorem captureReadOperand_ack (a : Bool) : (b.captureReadOperand a).ack = b.ack := rfl
@[simp] theorem captureReadOperand_ackpol (a : Bool) : (b.captureReadOperand a).ackpol = a := rfl
@[simp] theorem captureReadOperand_busy (a : Bool) : (b.captureReadOperand a).busy = b.busy := rfl
@[simp] theorem captureReadOperand_op (a : Bool) : (b.captureReadOperand a).op = b.op := rfl
@[simp] theorem captureReadOperand_ustep (a : Bool) : (b.captureReadOperand a).ustep = b.ustep := rfl
@[simp] theorem captureReadOperand_cmderr (a : Bool) : (b.captureReadOperand a).cmderr = b.cmderr := rfl

@[simp] theorem latchAck_sclDrv (s : Bool) : (b.latchAck s).sclDrv = b.sclDrv := rfl
@[simp] theorem latchAck_sdaDrv (s : Bool) : (b.latchAck s).sdaDrv = b.sdaDrv := rfl
@[simp] theorem latchAck_shreg (s : Bool) : (b.latchAck s).shreg = b.shreg := rfl
@[simp] theorem latchAck_bitcnt (s : Bool) : (b.latchAck s).bitcnt = b.bitcnt := rfl
@[simp] theorem latchAck_txdata (s : Bool) : (b.latchAck s).txdata = b.txdata := rfl
@[simp] theorem latchAck_rxdata (s : Bool) : (b.latchAck s).rxdata = b.rxdata := rfl
@[simp] theorem latchAck_ack (s : Bool) : (b.latchAck s).ack = !s := rfl
@[simp] theorem latchAck_ackpol (s : Bool) : (b.latchAck s).ackpol = b.ackpol := rfl
@[simp] theorem latchAck_busy (s : Bool) : (b.latchAck s).busy = b.busy := rfl
@[simp] theorem latchAck_op (s : Bool) : (b.latchAck s).op = b.op := rfl
@[simp] theorem latchAck_ustep (s : Bool) : (b.latchAck s).ustep = b.ustep := rfl
@[simp] theorem latchAck_cmderr (s : Bool) : (b.latchAck s).cmderr = b.cmderr := rfl

@[simp] theorem rejectCommand_sclDrv : (b.rejectCommand).sclDrv = b.sclDrv := rfl
@[simp] theorem rejectCommand_sdaDrv : (b.rejectCommand).sdaDrv = b.sdaDrv := rfl
@[simp] theorem rejectCommand_shreg : (b.rejectCommand).shreg = b.shreg := rfl
@[simp] theorem rejectCommand_bitcnt : (b.rejectCommand).bitcnt = b.bitcnt := rfl
@[simp] theorem rejectCommand_txdata : (b.rejectCommand).txdata = b.txdata := rfl
@[simp] theorem rejectCommand_rxdata : (b.rejectCommand).rxdata = b.rxdata := rfl
@[simp] theorem rejectCommand_ack : (b.rejectCommand).ack = b.ack := rfl
@[simp] theorem rejectCommand_ackpol : (b.rejectCommand).ackpol = b.ackpol := rfl
@[simp] theorem rejectCommand_busy : (b.rejectCommand).busy = b.busy := rfl
@[simp] theorem rejectCommand_op : (b.rejectCommand).op = b.op := rfl
@[simp] theorem rejectCommand_ustep : (b.rejectCommand).ustep = b.ustep := rfl
@[simp] theorem rejectCommand_cmderr : (b.rejectCommand).cmderr = true := rfl

@[simp] theorem branch_sclDrv (top : BitVec 4) : (b.branch top).sclDrv = b.sclDrv := rfl
@[simp] theorem branch_sdaDrv (top : BitVec 4) : (b.branch top).sdaDrv = b.sdaDrv := rfl
@[simp] theorem branch_shreg (top : BitVec 4) : (b.branch top).shreg = b.shreg := rfl
@[simp] theorem branch_bitcnt (top : BitVec 4) : (b.branch top).bitcnt = b.bitcnt := rfl
@[simp] theorem branch_txdata (top : BitVec 4) : (b.branch top).txdata = b.txdata := rfl
@[simp] theorem branch_rxdata (top : BitVec 4) : (b.branch top).rxdata = b.rxdata := rfl
@[simp] theorem branch_ack (top : BitVec 4) : (b.branch top).ack = b.ack := rfl
@[simp] theorem branch_ackpol (top : BitVec 4) : (b.branch top).ackpol = b.ackpol := rfl
@[simp] theorem branch_busy (top : BitVec 4) : (b.branch top).busy = b.busy := rfl
@[simp] theorem branch_op (top : BitVec 4) : (b.branch top).op = b.op := rfl
@[simp] theorem branch_ustep (top : BitVec 4) : (b.branch top).ustep = if b.bitcnt = 8#4 then 7#4 else top := rfl
@[simp] theorem branch_cmderr (top : BitVec 4) : (b.branch top).cmderr = b.cmderr := rfl

@[simp] theorem writeStatus_sclDrv (v : Byte) : (b.writeStatus v).sclDrv = b.sclDrv := by
  unfold Block.writeStatus; split <;> rfl
@[simp] theorem writeStatus_sdaDrv (v : Byte) : (b.writeStatus v).sdaDrv = b.sdaDrv := by
  unfold Block.writeStatus; split <;> rfl
@[simp] theorem writeStatus_shreg (v : Byte) : (b.writeStatus v).shreg = b.shreg := by
  unfold Block.writeStatus; split <;> rfl
@[simp] theorem writeStatus_bitcnt (v : Byte) : (b.writeStatus v).bitcnt = b.bitcnt := by
  unfold Block.writeStatus; split <;> rfl
@[simp] theorem writeStatus_txdata (v : Byte) : (b.writeStatus v).txdata = b.txdata := by
  unfold Block.writeStatus; split <;> rfl
@[simp] theorem writeStatus_rxdata (v : Byte) : (b.writeStatus v).rxdata = b.rxdata := by
  unfold Block.writeStatus; split <;> rfl
@[simp] theorem writeStatus_ack (v : Byte) : (b.writeStatus v).ack = b.ack := by
  unfold Block.writeStatus; split <;> rfl
@[simp] theorem writeStatus_ackpol (v : Byte) : (b.writeStatus v).ackpol = b.ackpol := by
  unfold Block.writeStatus; split <;> rfl
@[simp] theorem writeStatus_busy (v : Byte) : (b.writeStatus v).busy = b.busy := by
  unfold Block.writeStatus; split <;> rfl
@[simp] theorem writeStatus_op (v : Byte) : (b.writeStatus v).op = b.op := by
  unfold Block.writeStatus; split <;> rfl
@[simp] theorem writeStatus_ustep (v : Byte) : (b.writeStatus v).ustep = b.ustep := by
  unfold Block.writeStatus; split <;> rfl
@[simp] theorem writeStatus_cmderr (v : Byte) : (b.writeStatus v).cmderr = if v.getLsbD 6 then false else b.cmderr := by
  unfold Block.writeStatus; split <;> rfl

end BlockUpdates

section Cycles

variable (s : State) (a : Access) (h : HostAgent)

@[simp] theorem cycleWith_blk : (s.cycleWith a h).blk = blockStep s.blk (inputOf a s.envNow) := rfl
@[simp] theorem cycleWith_env : (s.cycleWith a h).env = s.env.tail := rfl
@[simp] theorem cycleWith_host : (s.cycleWith a h).host = h := rfl
@[simp] theorem cycleWith_cycle : (s.cycleWith a h).cycle = s.cycle + 1 := rfl
@[simp] theorem cycleWith_events :
    (s.cycleWith a h).events = s.events ++ cycleEvents s.blk (inputOf a s.envNow) := rfl

@[simp] theorem tick_blk : (tick s).blk = blockStep s.blk (inputOf s.host.access s.envNow) := rfl
@[simp] theorem tick_env : (tick s).env = s.env.tail := rfl
@[simp] theorem tick_host :
    (tick s).host = s.host.next (memRead s.blk s.envNow.sclLevel s.envNow.sdaLevel s.host.access.reg) := rfl
@[simp] theorem tick_cycle : (tick s).cycle = s.cycle + 1 := rfl
@[simp] theorem tick_events :
    (tick s).events = s.events ++ cycleEvents s.blk (inputOf s.host.access s.envNow) := rfl

@[simp] theorem inputOf_rst (e : EnvCycle) : (inputOf a e).rst = e.rst := rfl
@[simp] theorem inputOf_regWe (e : EnvCycle) : (inputOf a e).regWe = a.we := rfl
@[simp] theorem inputOf_regAddr (e : EnvCycle) : (inputOf a e).regAddr = a.reg := rfl
@[simp] theorem inputOf_regWdata (e : EnvCycle) : (inputOf a e).regWdata = a.wdata := rfl
@[simp] theorem inputOf_sclLevel (e : EnvCycle) : (inputOf a e).sclLevel = e.sclLevel := rfl
@[simp] theorem inputOf_sdaLevel (e : EnvCycle) : (inputOf a e).sdaLevel = e.sdaLevel := rfl
@[simp] theorem inputOf_dlyDone (e : EnvCycle) : (inputOf a e).dlyDone = e.dlyDone := rfl

/-- While the script lasts, the present answer is its head. -/
@[simp] theorem envNow_cons (e : EnvCycle) (es : List EnvCycle) (hs : s.env = e :: es) : s.envNow = e := by
  simp [State.envNow, hs]

end Cycles

end Sys2Proof.Machine
end

