-- ==== Sys2Proof/Laws/Block.lean ====
section
/-! SUPPORT. What each shared operation of the block can do, said once: the sequencer, the port, one step. -/

namespace Sys2Proof.Machine

section Sequencer

variable (b : Block) (scl sda dly : Bool)

/-- An idle block has no current micro-operation (R200). -/
theorem current_of_idle (h : b.busy = false) : b.current = none := by simp [Block.current, h]

/-- A busy block's micro-operation is the one at its position (R200). -/
theorem current_of_busy (h : b.busy = true) : b.current = b.atPosition := by simp [Block.current, h]

/-- A micro-operation is current only while busy. -/
theorem busy_of_current {u : MicroOp} (h : b.current = some u) : b.busy = true := by
  cases hb : b.busy
  · simp [Block.current, hb] at h
  · rfl

/-- The sequencer does nothing in an idle block (R30, R200). -/
theorem sequencer_idle (h : b.busy = false) : sequencer b scl sda dly = b := by
  simp [sequencer, current_of_idle b h]

/-- A micro-operation that does not complete has no update (R206). -/
theorem update_of_held {u : MicroOp} (h : u.completes scl dly = false) : u.update b sda = b := by
  cases u <;> simp_all [MicroOp.completes, MicroOp.update]

/-- A held micro-operation changes nothing (R206). -/
theorem sequencer_hold {u : MicroOp} (hu : b.current = some u) (hc : u.completes scl dly = false) :
    sequencer b scl sda dly = b := by
  simp [sequencer, hu, hc, update_of_held b scl sda dly hc]

/-- A completed micro-operation has its update and advances (R203, R206, R207). -/
theorem sequencer_done {u : MicroOp} (hu : b.current = some u) (hc : u.completes scl dly = true) :
    sequencer b scl sda dly = (u.update b sda).advance u := by
  simp [sequencer, hu, hc]

/-- Everything the sequencer can do in a cycle: nothing is current, the micro-operation holds, or it completes. -/
theorem sequencer_cases :
    (b.current = none ∧ sequencer b scl sda dly = b) ∨
    (∃ u, b.current = some u ∧ u.completes scl dly = false ∧ sequencer b scl sda dly = b) ∨
    (∃ u, b.current = some u ∧ u.completes scl dly = true ∧
      sequencer b scl sda dly = (u.update b sda).advance u) := by
  cases hu : b.current with
  | none => exact .inl ⟨rfl, by simp [sequencer, hu]⟩
  | some u =>
    cases hc : u.completes scl dly with
    | false => exact .inr (.inl ⟨u, rfl, hc, sequencer_hold b scl sda dly hu hc⟩)
    | true => exact .inr (.inr ⟨u, rfl, hc, sequencer_done b scl sda dly hu hc⟩)

/-- Updates leave the position alone but for BITCNT (R206). -/
@[simp] theorem update_busy (u : MicroOp) : (u.update b sda).busy = b.busy := by cases u <;> rfl
@[simp] theorem update_op (u : MicroOp) : (u.update b sda).op = b.op := by cases u <;> rfl
@[simp] theorem update_ustep (u : MicroOp) : (u.update b sda).ustep = b.ustep := by cases u <;> rfl
@[simp] theorem update_txdata (u : MicroOp) : (u.update b sda).txdata = b.txdata := by cases u <;> rfl
@[simp] theorem update_ackpol (u : MicroOp) : (u.update b sda).ackpol = b.ackpol := by cases u <;> rfl
@[simp] theorem update_cmderr (u : MicroOp) : (u.update b sda).cmderr = b.cmderr := by cases u <;> rfl

/-- Advancing touches only the sequencer position (R203, R205, R207). -/
@[simp] theorem advance_sclDrv (u : MicroOp) : (b.advance u).sclDrv = b.sclDrv := by
  cases u <;> simp only [Block.advance] <;> (try split) <;> rfl
@[simp] theorem advance_sdaDrv (u : MicroOp) : (b.advance u).sdaDrv = b.sdaDrv := by
  cases u <;> simp only [Block.advance] <;> (try split) <;> rfl
@[simp] theorem advance_shreg (u : MicroOp) : (b.advance u).shreg = b.shreg := by
  cases u <;> simp only [Block.advance] <;> (try split) <;> rfl
@[simp] theorem advance_txdata (u : MicroOp) : (b.advance u).txdata = b.txdata := by
  cases u <;> simp only [Block.advance] <;> (try split) <;> rfl
@[simp] theorem advance_rxdata (u : MicroOp) : (b.advance u).rxdata = b.rxdata := by
  cases u <;> simp only [Block.advance] <;> (try split) <;> rfl
@[simp] theorem advance_ack (u : MicroOp) : (b.advance u).ack = b.ack := by
  cases u <;> simp only [Block.advance] <;> (try split) <;> rfl
@[simp] theorem advance_ackpol (u : MicroOp) : (b.advance u).ackpol = b.ackpol := by
  cases u <;> simp only [Block.advance] <;> (try split) <;> rfl
@[simp] theorem advance_cmderr (u : MicroOp) : (b.advance u).cmderr = b.cmderr := by
  cases u <;> simp only [Block.advance] <;> (try split) <;> rfl

/-- The sequencer never writes TXDATA, ACKPOL or CMDERR (R209). -/
@[simp] theorem sequencer_txdata : (sequencer b scl sda dly).txdata = b.txdata := by
  rcases sequencer_cases b scl sda dly with ⟨-, h⟩ | ⟨u, -, -, h⟩ | ⟨u, -, -, h⟩ <;> simp [h]
@[simp] theorem sequencer_ackpol : (sequencer b scl sda dly).ackpol = b.ackpol := by
  rcases sequencer_cases b scl sda dly with ⟨-, h⟩ | ⟨u, -, -, h⟩ | ⟨u, -, -, h⟩ <;> simp [h]
@[simp] theorem sequencer_cmderr : (sequencer b scl sda dly).cmderr = b.cmderr := by
  rcases sequencer_cases b scl sda dly with ⟨-, h⟩ | ⟨u, -, -, h⟩ | ⟨u, -, -, h⟩ <;> simp [h]

end Sequencer

section Port

variable (s n : Block) (v : Byte)

/-- A command write while busy is rejected, whatever the byte (R204). -/
theorem commandIssue_busy (h : s.busy = true) : commandIssue s n v = n.rejectCommand := by
  simp [commandIssue, h]

/-- An illegal byte is rejected (R95, R204). -/
theorem commandIssue_illegal (hv : decodeCommand v = none) : commandIssue s n v = n.rejectCommand := by
  simp [commandIssue, hv]

/-- A legal byte written to an idle block is accepted (R204). -/
theorem commandIssue_legal {i : Instr} (h : s.busy = false) (hv : decodeCommand v = some i) :
    commandIssue s n v = acceptCommand i n := by
  simp [commandIssue, h, hv]

end Port

section Step

variable (b : Block) (i : Input)

/-- Reset beats every other input (R52, R234 (1)). -/
theorem blockStep_rst (h : i.rst = true) : blockStep b i = Block.reset := by simp [blockStep, h]

/-- Without a write the step is the sequencer's (R209). -/
theorem blockStep_noWrite (h : i.rst = false) (hw : i.regWe = false) :
    blockStep b i = sequencer b i.sclLevel i.sdaLevel i.dlyDone := by
  simp [blockStep, h, hw]

/-- With a write, the port acts on what the sequencer made (R209). -/
theorem blockStep_write (h : i.rst = false) (hw : i.regWe = true) :
    blockStep b i
      = registerWrite b (sequencer b i.sclLevel i.sdaLevel i.dlyDone) i.regAddr i.regWdata := by
  simp [blockStep, h, hw]

/-- A write while busy changes nothing but TXDATA and CMDERR (R209: the parts never write the same field). -/
theorem registerWrite_busy (n : Block) (r : Reg) (v : Byte) (h : b.busy = true) :
    ∃ tx ce, registerWrite b n r v = { n with txdata := tx, cmderr := ce } := by
  cases r with
  | cmd => exact ⟨n.txdata, true, commandIssue_busy b n v h⟩
  | status =>
    by_cases hv : v.getLsbD 6
    · exact ⟨n.txdata, false, if_pos hv⟩
    · exact ⟨n.txdata, n.cmderr, if_neg hv⟩
  | txdata => exact ⟨v, n.cmderr, rfl⟩
  | rxdata => exact ⟨n.txdata, n.cmderr, rfl⟩

/-- A cycle of a busy block without reset is the sequencer's but for TXDATA and CMDERR, whatever the host does. -/
theorem blockStep_busy (h : i.rst = false) (hb : b.busy = true) :
    ∃ tx ce, blockStep b i
      = { sequencer b i.sclLevel i.sdaLevel i.dlyDone with txdata := tx, cmderr := ce } := by
  cases hw : i.regWe with
  | false => exact ⟨_, _, blockStep_noWrite b i h hw⟩
  | true =>
    rw [blockStep_write b i h hw]
    exact registerWrite_busy b _ _ _ hb

end Step

end Sys2Proof.Machine
end

