-- ==== Sys2Proof/Laws/HostMemory.lean ====
section
/-! SUPPORT. Host memory: a read after a write, the canonical form kept by every operation and by every cycle, and
which cycle stores in it (R181). -/

namespace Sys2Proof.Machine

section Cells

@[simp] theorem HostMemory.read_nil (c : Nat) : HostMemory.read [] c = none := rfl

/-- The first listed cell, or the others. -/
@[simp] theorem HostMemory.read_cons (p : Nat × DeviceAddress) (m : HostMemory) (c : Nat) :
    HostMemory.read (p :: m) c = if c = p.1 then some p.2 else HostMemory.read m c := by
  simp only [HostMemory.read, List.lookup]
  split <;> simp_all

/-- A store gives its cell the value and leaves every other cell alone, whatever the form of the list. -/
@[simp] theorem HostMemory.read_write (m : HostMemory) (c : Nat) (v : DeviceAddress) (d : Nat) :
    HostMemory.read (HostMemory.write c v m) d = if d = c then some v else HostMemory.read m d := by
  induction m with
  | nil => simp [HostMemory.write]
  | cons p m ih => unfold HostMemory.write; grind [HostMemory.read_cons]

/-- The cells listed after a store. -/
theorem HostMemory.mem_write {m : HostMemory} {c : Nat} {v : DeviceAddress} {d : Nat}
    (h : d ∈ (HostMemory.write c v m).map Prod.fst) : d = c ∨ d ∈ m.map Prod.fst := by
  induction m with
  | nil => simpa [HostMemory.write] using h
  | cons p m ih => unfold HostMemory.write at h; grind

/-- A store keeps the canonical form. -/
theorem HostMemory.wf_write {m : HostMemory} (c : Nat) (v : DeviceAddress) (h : HostMemory.wf m = true) :
    HostMemory.wf (HostMemory.write c v m) = true := by
  simp only [HostMemory.wf, decide_eq_true_eq] at *
  induction m with
  | nil => simp [HostMemory.write]
  | cons p m ih =>
    rw [List.map_cons, List.pairwise_cons] at h
    unfold HostMemory.write
    split
    · rename_i hlt
      rw [List.map_cons, List.map_cons, List.pairwise_cons, List.pairwise_cons]
      refine ⟨fun d hd => ?_, h⟩
      rcases List.mem_cons.1 hd with rfl | hd
      · exact hlt
      · exact Nat.lt_trans hlt (h.1 d hd)
    split
    · rename_i heq
      subst heq
      exact List.pairwise_cons.2 h
    · refine List.pairwise_cons.2 ⟨fun d hd => ?_, ih h.2⟩
      rcases HostMemory.mem_write hd with rfl | hd
      · omega
      · exact h.1 d hd

/-- Memories in canonical form that read alike are equal. -/
theorem HostMemory.ext_of_read {m n : HostMemory} (hm : HostMemory.wf m = true) (hn : HostMemory.wf n = true)
    (h : ∀ c, HostMemory.read m c = HostMemory.read n c) : m = n := by
  simp only [HostMemory.wf, decide_eq_true_eq] at hm hn
  have absent : ∀ (l : HostMemory) (c : Nat), (∀ d ∈ l.map Prod.fst, c < d) → HostMemory.read l c = none := by
    intro l c hl
    induction l with
    | nil => rfl
    | cons p l ih =>
      have := hl p.1 (by simp)
      rw [HostMemory.read_cons, if_neg (by omega)]
      exact ih fun d hd => hl d (List.mem_cons_of_mem _ hd)
  induction m generalizing n with
  | nil =>
    cases n with
    | nil => rfl
    | cons q n => simpa using h q.1
  | cons p m ih =>
    cases n with
    | nil => simpa using h p.1
    | cons q n =>
      rw [List.map_cons, List.pairwise_cons] at hm hn
      have hp := h p.1
      have hq := h q.1
      have : p.1 = q.1 := by
        rcases Nat.lt_trichotomy p.1 q.1 with hlt | heq | hgt
        · rw [HostMemory.read_cons, HostMemory.read_cons, if_pos rfl, if_neg (by omega),
            absent n p.1 fun d hd => Nat.lt_trans hlt (hn.1 d hd)] at hp
          simp at hp
        · exact heq
        · rw [HostMemory.read_cons, HostMemory.read_cons, if_neg (by omega), if_pos rfl,
            absent m q.1 fun d hd => Nat.lt_trans hgt (hm.1 d hd)] at hq
          simp at hq
      obtain ⟨a, x⟩ := p
      obtain ⟨b, y⟩ := q
      obtain rfl : a = b := this
      obtain rfl : x = y := by simpa using hp
      congr 1
      refine ih (fun c => ?_) hm.2 hn.2
      have hc := h c
      rw [HostMemory.read_cons, HostMemory.read_cons] at hc
      split at hc
      · rename_i heq
        subst heq
        rw [absent m _ hm.1, absent n _ hn.1]
      · exact hc

end Cells

section Scan

variable (m : ScanMemory) (buf cap a : Nat)

@[simp] theorem start_count : m.start.count = 0 := rfl
@[simp] theorem start_cells : m.start.cells = m.cells := rfl
@[simp] theorem found_count : (m.found buf cap a).count = m.count + 1 := rfl

/-- `if count < cap: buf[count] <- a`, cell by cell (R181). -/
@[simp] theorem found_read (c : Nat) :
    HostMemory.read (m.found buf cap a).cells c
      = if m.count < cap ∧ c = buf + m.count then some (BitVec.ofNat 7 a) else HostMemory.read m.cells c := by
  simp only [ScanMemory.found]
  split <;> simp_all

theorem found_wf (h : HostMemory.wf m.cells = true) : HostMemory.wf (m.found buf cap a).cells = true := by
  simp only [ScanMemory.found]
  split
  · exact HostMemory.wf_write _ _ h
  · exact h

/-- What one cycle does to host memory: it starts a SCAN, it records a found device, or nothing. -/
theorem next_scan (h : HostAgent) (r : Byte) :
    (h.next r).scan = h.scan ∨
    (∃ buf cap rest, h.prog = .scan buf cap :: rest ∧ (h.next r).scan = h.scan.start) ∨
    (∃ buf cap a rest, h.prog = .scanTest buf cap a :: rest ∧ h.lastAck = true ∧
      (h.next r).scan = h.scan.found buf cap a) := by
  rcases h with ⟨_ | ⟨o, p⟩, rs, m⟩
  · exact .inl rfl
  cases o with
  | scan buf cap => exact .inr (.inl ⟨buf, cap, p, rfl, rfl⟩)
  | scanTest buf cap a =>
    simp only [HostAgent.next, HostAgent.scanTest]
    split
    · exact .inr (.inr ⟨buf, cap, a, p, rfl, ‹_›, rfl⟩)
    · exact .inl rfl
  | idleFor n => cases n <;> exact .inl rfl
  | waitIdle => simp only [HostAgent.next]; split <;> exact .inl rfl
  | wr => exact .inl rfl
  | rd => exact .inl rfl
  | idle => exact .inl rfl
  | delayUs => exact .inl rfl
  | scanProbe => exact .inl rfl

/-- Every cycle keeps the canonical form of host memory. -/
theorem tick_cells_wf {s : State} (h : HostMemory.wf s.host.scan.cells = true) :
    HostMemory.wf (tick s).host.scan.cells = true := by
  rw [tick_host]
  rcases next_scan s.host (memRead s.blk s.envNow.sclLevel s.envNow.sdaLevel s.host.access.reg)
    with e | ⟨_, _, _, -, e⟩ | ⟨buf, cap, a, _, -, -, e⟩ <;> rw [e]
  · exact h
  · exact h
  · exact found_wf _ buf cap a h

end Scan

end Sys2Proof.Machine
end

