-- ==== Sys2Proof/Laws/PerInstr.lean ====
section
/-! SUPPORT. For each command: its encoding meets its row of spec/opcode_table.json. -/

namespace Sys2Proof.Laws

/-- The encoding under the row's mask is the row's match (R92; opcode_table.json). -/
def OpcodeRow.Statement (i : Instr) : Prop := encode i &&& tableMask i = tableMatch i

theorem OpcodeRow.nop : OpcodeRow.Statement .nop := by unfold OpcodeRow.Statement; decide
theorem OpcodeRow.begin : OpcodeRow.Statement .begin := by unfold OpcodeRow.Statement; decide
theorem OpcodeRow.start : OpcodeRow.Statement .start := by unfold OpcodeRow.Statement; decide
theorem OpcodeRow.stop : OpcodeRow.Statement .stop := by unfold OpcodeRow.Statement; decide
theorem OpcodeRow.write : OpcodeRow.Statement .write := by unfold OpcodeRow.Statement; decide
theorem OpcodeRow.read (a : Bool) : OpcodeRow.Statement (.read a) := by
  unfold OpcodeRow.Statement; cases a <;> decide

end Sys2Proof.Laws
end

