-- ==== Sys2Proof/Laws/Run.lean ====
section
/-! SUPPORT. Cycles of the machine and runs of commands: the laws that proofs about `exec` and `step` cite. -/

namespace Sys2Proof.Machine

section Ticks

/-- Cycles add up. -/
theorem ticks_add (m n : Nat) (s : State) : ticks (m + n) s = ticks n (ticks m s) := by
  induction m generalizing s with
  | zero => simp [ticks]
  | succ m ih => rw [Nat.succ_add]; exact ih (tick s)

/-- A waiting host makes no write and does not move while the block is busy (R100). -/
theorem waiting_access {h : HostAgent} (hw : h.waiting = true) : h.access.we = false := by
  rcases h with ⟨_ | ⟨o, p⟩, r, m⟩
  · rfl
  · cases o <;> simp_all [HostAgent.waiting, HostAgent.access, HostOp.access]

/-- Bit 0 of STATUS is BUSY (R68). -/
theorem statusByte_bit0 (b : Block) (scl sda : Bool) : (statusByte b scl sda).getLsbD 0 = b.busy := by
  unfold statusByte
  cases b.busy <;> cases b.ack <;> cases scl <;> cases sda <;> cases b.sclDrv <;> cases b.sdaDrv <;>
    cases b.cmderr <;> rfl

/-- Bit 1 of STATUS is ACK (R68). -/
theorem statusByte_bit1 (b : Block) (scl sda : Bool) : (statusByte b scl sda).getLsbD 1 = b.ack := by
  unfold statusByte
  cases b.busy <;> cases b.ack <;> cases scl <;> cases sda <;> cases b.sclDrv <;> cases b.sdaDrv <;>
    cases b.cmderr <;> rfl

/-- A waiting host stays as it is through a cycle of a busy block (R100). -/
theorem waiting_next {s : State} (hw : s.host.waiting = true) (hb : s.blk.busy = true) :
    s.host.next (memRead s.blk s.envNow.sclLevel s.envNow.sdaLevel s.host.access.reg) = s.host := by
  rcases hh : s.host with ⟨_ | ⟨o, p⟩, r, m⟩
  · rfl
  · cases o <;>
      simp_all [HostAgent.waiting, HostAgent.access, HostOp.access, HostAgent.next, memRead, statusByte_bit0]

/-- A cycle of a busy block under a waiting host without reset: the sequencer acts and the host stays. -/
theorem tick_waiting {s : State} (hw : s.host.waiting = true) (hb : s.blk.busy = true)
    (hr : s.envNow.rst = false) :
    tick s =
      { s with
        blk := sequencer s.blk s.envNow.sclLevel s.envNow.sdaLevel s.envNow.dlyDone
        env := s.env.tail
        cycle := s.cycle + 1
        events := s.events ++ cycleEvents s.blk (inputOf s.host.access s.envNow) } := by
  have h1 := waiting_access hw
  have h2 := waiting_next hw hb
  have h3 := blockStep_noWrite s.blk (inputOf s.host.access s.envNow) hr h1
  simp only [inputOf_sclLevel, inputOf_sdaLevel, inputOf_dlyDone] at h3
  simp only [tick, State.cycleWith, h2, h3]

end Ticks

section Runs

/-- With no answers left the run ends. -/
@[simp] theorem runWhileBusy_nil (s : State) : runWhileBusy [] s = s := rfl

/-- The run ends when the block is idle. -/
theorem runWhileBusy_idle (es : List EnvCycle) {s : State} (h : s.blk.busy = false) : runWhileBusy es s = s := by
  cases es <;> simp [runWhileBusy, h]

/-- While busy the run makes one cycle for the next answer. -/
theorem runWhileBusy_cons (e : EnvCycle) (es : List EnvCycle) {s : State} (h : s.blk.busy = true) :
    runWhileBusy (e :: es) s = runWhileBusy es (tick s) := by
  simp [runWhileBusy, h]

/-- What holds at the start of a run and is kept by every cycle of a busy block holds at its end. -/
theorem runWhileBusy_keeps {P : State → Prop} (hP : ∀ s, s.blk.busy = true → P s → P (tick s))
    (es : List EnvCycle) (s : State) (h : P s) : P (runWhileBusy es s) := by
  induction es generalizing s with
  | nil => exact h
  | cons e es ih =>
    cases hb : s.blk.busy with
    | false => rwa [runWhileBusy_idle _ hb]
    | true => rw [runWhileBusy_cons e es hb]; exact ih _ (hP s hb h)

/-- A command issued to a busy block is turned away in one cycle. -/
theorem runCommand_busy (i : Instr) (f : Block → Block) {s : State} (h : s.blk.busy = true) :
    runCommand i f s = issueCycle i f s := by
  simp [runCommand, h]

/-- A command issued to an idle block without reset: it is accepted, then runs as far as the script reaches. -/
theorem runCommand_ready (i : Instr) (f : Block → Block) {s : State} (h : s.blk.busy = false)
    (hr : s.envNow.rst = false) :
    runCommand i f s
      = runWhileBusy s.env.tail { s with blk := f s.blk, env := s.env.tail, cycle := s.cycle + 1 } := by
  have hc : cycleEvents s.blk (inputOf (issueAccess i) s.envNow) = [] := by
    simp [cycleEvents, hr, current_of_idle _ h]
  have hi : issueBlock f s.blk s.envNow = f s.blk := by
    simp [issueBlock, hr, h, sequencer_idle _ _ _ _ h]
  simp [runCommand, h, issueCycle, hc, hi]

/-- A command issued in a cycle with reset is lost (R234 (1)). -/
theorem runCommand_rst (i : Instr) (f : Block → Block) {s : State} (hr : s.envNow.rst = true) :
    (runCommand i f s).blk = Block.reset := by
  have hi : issueBlock f s.blk s.envNow = Block.reset := by simp [issueBlock, hr]
  have hb : (issueCycle i f s).blk.busy = false := by simp [issueCycle, hi, Block.reset]
  simp only [runCommand, runWhileBusy_idle _ hb, ite_self]
  exact hi

end Runs

end Sys2Proof.Machine
end

