-- ==== Sys2Proof/Laws/Remaining.lean ====
section
/-! SUPPORT. The micro-operations a running command still has before it, and that answers to exactly those take it to
its end: the law behind every statement about a whole command. -/

namespace Sys2Proof.Machine

/-- `n` rounds of WRITE's bit loop, then the part after it. -/
def writeRounds (n : Nat) : List MicroOp :=
  (List.replicate n (writeProgram.take 7)).flatten ++ writeProgram.drop 7

/-- `n` rounds of READ's bit loop, then the part after it. -/
def readRounds (n : Nat) : List MicroOp :=
  (List.replicate n ((readProgram.drop 1).take 6)).flatten ++ readProgram.drop 7

/-- The micro-operations from a position to the end of its command, the present one first. -/
def Block.remaining (b : Block) : List MicroOp :=
  match b.op.toNat with
  | 4 =>
    if b.ustep.toNat < 7 then (writeProgram.take 7).drop b.ustep.toNat ++ writeRounds (7 - b.bitcnt.toNat)
    else writeProgram.drop b.ustep.toNat
  | 5 =>
    if b.ustep.toNat = 0 then readProgram.take 1 ++ readRounds (8 - b.bitcnt.toNat)
    else if b.ustep.toNat < 7 then
      (readProgram.take 7).drop b.ustep.toNat ++ readRounds (7 - b.bitcnt.toNat)
    else readProgram.drop b.ustep.toNat
  | _ => (microProgram b.op).drop b.ustep.toNat

theorem remaining_acceptBegin (b : Block) : (acceptBegin b).remaining = unrolled .begin := rfl
theorem remaining_acceptStart (b : Block) : (acceptStart b).remaining = unrolled .start := rfl
theorem remaining_acceptStop (b : Block) : (acceptStop b).remaining = unrolled .stop := rfl
theorem remaining_acceptWrite (b : Block) : (acceptWrite b).remaining = unrolled .write := rfl
theorem remaining_acceptRead (a : Bool) (b : Block) : (acceptRead a b).remaining = unrolled (.read a) := rfl

/-- `remaining` looks at the position alone. -/
theorem remaining_congr {b c : Block} (h1 : c.op = b.op) (h2 : c.ustep = b.ustep) (h3 : c.bitcnt = b.bitcnt) :
    c.remaining = b.remaining := by
  unfold Block.remaining; rw [h1, h2, h3]

/-- A position inside its micro-program, with fewer than 8 bits done while a bit loop runs; `positionOk` implies
it. -/
def Block.onTrack (b : Block) : Prop :=
  b.ustep.toNat < (microProgram b.op).length ∧ (7 ≤ b.ustep.toNat ∨ b.bitcnt.toNat < 8)

theorem onTrack_congr {b c : Block} (h1 : c.op = b.op) (h2 : c.ustep = b.ustep) (h3 : c.bitcnt = b.bitcnt)
    (h : b.onTrack) : c.onTrack := by
  unfold Block.onTrack at *; rwa [h1, h2, h3]

/-- A 4-bit value is one of its sixteen. -/
theorem bv4_cases (x : BitVec 4) : ∃ k, k < 16 ∧ x = BitVec.ofNat 4 k :=
  ⟨x.toNat, x.isLt, by simp⟩

/-- An opcode with a micro-program is one of 1 to 5. -/
theorem op_cases {op : BitVec 3} {n : Nat} (h : n < (microProgram op).length) :
    op = 1#3 ∨ op = 2#3 ∨ op = 3#3 ∨ op = 4#3 ∨ op = 5#3 := by
  have key : ∀ o : BitVec 3, o = 1#3 ∨ o = 2#3 ∨ o = 3#3 ∨ o = 4#3 ∨ o = 5#3 ∨ (microProgram o).length = 0 := by
    decide
  rcases key op with h' | h' | h' | h' | h' | h' <;> simp_all

/-- What one completed micro-operation does to what remains: the head was current; the rest remains at the next
position, or the command has finished. -/
def Block.stepsRemaining (b : Block) (sda : Bool) : Prop :=
  ∃ u, b.current = some u ∧
    (((u.update b sda).advance u).busy = true ∧ ((u.update b sda).advance u).onTrack ∧
        b.remaining = u :: ((u.update b sda).advance u).remaining ∨
      ((u.update b sda).advance u).busy = false ∧ b.remaining = [u])

section

variable (scl sdaD : LineDrive) (sh tx rx : Byte) (bc : BitVec 4) (ack ap ce sda : Bool)

theorem stepsRemaining_begin {k : Nat} (hk : k < 3) (h : 7 ≤ k ∨ bc.toNat < 8) :
    Block.stepsRemaining ⟨scl, sdaD, sh, bc, tx, rx, ack, ap, true, 1#3, BitVec.ofNat 4 k, ce⟩ sda := by
  have h8 : bc.toNat < 8 := by omega
  interval_cases k
  · exact ⟨_, rfl, .inl ⟨rfl, ⟨Nat.le_of_ble_eq_true rfl, .inr h8⟩, rfl⟩⟩
  · exact ⟨_, rfl, .inl ⟨rfl, ⟨Nat.le_of_ble_eq_true rfl, .inr h8⟩, rfl⟩⟩
  · exact ⟨_, rfl, .inr ⟨rfl, rfl⟩⟩

theorem stepsRemaining_condition {op : BitVec 3} (ho : op = 2#3 ∨ op = 3#3) {k : Nat} (hk : k < 9)
    (h : 7 ≤ k ∨ bc.toNat < 8) :
    Block.stepsRemaining ⟨scl, sdaD, sh, bc, tx, rx, ack, ap, true, op, BitVec.ofNat 4 k, ce⟩ sda := by
  rcases Nat.lt_or_ge k 7 with h7 | h7
  · have h8 : bc.toNat < 8 := by omega
    rcases ho with rfl | rfl <;> interval_cases k <;>
      exact ⟨_, rfl, .inl ⟨rfl, ⟨Nat.le_of_ble_eq_true rfl, .inr h8⟩, rfl⟩⟩
  · rcases ho with rfl | rfl <;> interval_cases k <;> first
      | exact ⟨_, rfl, .inr ⟨rfl, rfl⟩⟩
      | exact ⟨_, rfl, .inl ⟨rfl, ⟨Nat.le_of_ble_eq_true rfl, .inl (Nat.le_of_ble_eq_true rfl)⟩, rfl⟩⟩

/-- The SHIFT or BIT_SAMPLE that ends a round, by the count of bits done. -/
theorem stepsRemaining_loopEnd {op : BitVec 3} (ho : op = 4#3 ∨ op = 5#3) (h : bc.toNat < 8) :
    Block.stepsRemaining ⟨scl, sdaD, sh, bc, tx, rx, ack, ap, true, op, 6#4, ce⟩ sda := by
  obtain ⟨j, hj, rfl⟩ := bv4_cases bc
  rw [BitVec.toNat_ofNat, Nat.mod_eq_of_lt hj] at h
  rcases ho with rfl | rfl <;> interval_cases j <;> first
    | exact ⟨_, rfl, .inl ⟨rfl, ⟨Nat.le_of_ble_eq_true rfl, .inl (Nat.le_of_ble_eq_true rfl)⟩, rfl⟩⟩
    | exact ⟨_, rfl, .inl ⟨rfl, ⟨Nat.le_of_ble_eq_true rfl, .inr (Nat.le_of_ble_eq_true rfl)⟩, rfl⟩⟩

theorem stepsRemaining_write {k : Nat} (hk : k < 15) (h : 7 ≤ k ∨ bc.toNat < 8) :
    Block.stepsRemaining ⟨scl, sdaD, sh, bc, tx, rx, ack, ap, true, 4#3, BitVec.ofNat 4 k, ce⟩ sda := by
  rcases Nat.lt_or_ge k 6 with h6 | h6
  · have h8 : bc.toNat < 8 := by omega
    interval_cases k <;>
      exact ⟨_, rfl, .inl ⟨rfl, ⟨Nat.le_of_ble_eq_true rfl, .inr h8⟩, rfl⟩⟩
  rcases Nat.eq_or_lt_of_le h6 with rfl | h7
  · exact stepsRemaining_loopEnd scl sdaD sh tx rx bc ack ap ce sda (.inl rfl) (by omega)
  · interval_cases k <;> first
      | exact ⟨_, rfl, .inr ⟨rfl, rfl⟩⟩
      | exact ⟨_, rfl, .inl ⟨rfl, ⟨Nat.le_of_ble_eq_true rfl, .inl (Nat.le_of_ble_eq_true rfl)⟩, rfl⟩⟩

theorem stepsRemaining_read {k : Nat} (hk : k < 16) (h : 7 ≤ k ∨ bc.toNat < 8) :
    Block.stepsRemaining ⟨scl, sdaD, sh, bc, tx, rx, ack, ap, true, 5#3, BitVec.ofNat 4 k, ce⟩ sda := by
  rcases Nat.eq_zero_or_pos k with rfl | h0
  · have h8 : bc.toNat < 8 := by omega
    have hr : 8 - bc.toNat = (7 - bc.toNat) + 1 := by omega
    refine ⟨_, rfl, .inl ⟨rfl, ⟨Nat.le_of_ble_eq_true rfl, .inr h8⟩, ?_⟩⟩
    show readProgram.take 1 ++ readRounds (8 - bc.toNat) = _
    rw [hr]; rfl
  rcases Nat.lt_or_ge k 6 with h6 | h6
  · have h8 : bc.toNat < 8 := by omega
    interval_cases k <;>
      exact ⟨_, rfl, .inl ⟨rfl, ⟨Nat.le_of_ble_eq_true rfl, .inr h8⟩, rfl⟩⟩
  rcases Nat.eq_or_lt_of_le h6 with rfl | h7
  · exact stepsRemaining_loopEnd scl sdaD sh tx rx bc ack ap ce sda (.inr rfl) (by omega)
  · interval_cases k <;> first
      | exact ⟨_, rfl, .inr ⟨rfl, rfl⟩⟩
      | exact ⟨_, rfl, .inl ⟨rfl, ⟨Nat.le_of_ble_eq_true rfl, .inl (Nat.le_of_ble_eq_true rfl)⟩, rfl⟩⟩

end

/-- The law for every busy block on track. -/
theorem remaining_step {b : Block} (hb : b.busy = true) (ht : b.onTrack) (sda : Bool) : b.stepsRemaining sda := by
  obtain ⟨scl, sdaD, sh, bc, tx, rx, ack, ap, busy, op, us, ce⟩ := b
  obtain ⟨k, hk, rfl⟩ := bv4_cases us
  obtain rfl : busy = true := hb
  obtain ⟨h1, h2⟩ := ht
  simp only [BitVec.toNat_ofNat, Nat.mod_eq_of_lt hk] at h1 h2
  rcases op_cases h1 with rfl | rfl | rfl | rfl | rfl
  · exact stepsRemaining_begin _ _ _ _ _ _ _ _ _ _ h1 h2
  · exact stepsRemaining_condition _ _ _ _ _ _ _ _ _ _ (.inl rfl) h1 h2
  · exact stepsRemaining_condition _ _ _ _ _ _ _ _ _ _ (.inr rfl) h1 h2
  · exact stepsRemaining_write _ _ _ _ _ _ _ _ _ _ h1 h2
  · exact stepsRemaining_read _ _ _ _ _ _ _ _ _ _ h1 h2

/-- R37 puts every busy block on track. -/
theorem onTrack_of_positionOk {b : Block} (hb : b.busy = true) (hp : b.positionOk = true) : b.onTrack := by
  simp only [Block.positionOk, hb, if_true, Bool.and_eq_true, Bool.or_eq_true, decide_eq_true_eq, bne_iff_ne]
    at hp
  obtain ⟨⟨⟨⟨-, hl⟩, h8⟩, hc⟩, -⟩ := hp
  refine ⟨hl, ?_⟩
  rcases hc with h | ⟨-, h⟩
  · exact .inr (by omega)
  · exact .inl h

/-- While no answer asserts reset, a cycle of a busy block on track, whatever the host does, either holds or takes
the head off what remains. -/
theorem blockStep_remaining {b : Block} {i : Input} (hb : b.busy = true) (ht : b.onTrack) (hr : i.rst = false) :
    ∃ u us, b.remaining = u :: us ∧ b.current = some u ∧
      (u.completes i.sclLevel i.dlyDone = false ∧ (blockStep b i).busy = true ∧ (blockStep b i).onTrack ∧
          (blockStep b i).remaining = u :: us ∨
        u.completes i.sclLevel i.dlyDone = true ∧ us ≠ [] ∧ (blockStep b i).busy = true ∧
          (blockStep b i).onTrack ∧ (blockStep b i).remaining = us ∨
        u.completes i.sclLevel i.dlyDone = true ∧ us = [] ∧ (blockStep b i).busy = false) := by
  obtain ⟨u, hu, hs⟩ := remaining_step hb ht i.sdaLevel
  obtain ⟨tx, ce, hstep⟩ := blockStep_busy b i hr hb
  obtain ⟨us, hus⟩ : ∃ us, b.remaining = u :: us := by
    rcases hs with ⟨-, -, h⟩ | ⟨-, h⟩ <;> exact ⟨_, h⟩
  refine ⟨u, us, hus, hu, ?_⟩
  cases hc : u.completes i.sclLevel i.dlyDone with
  | false =>
    rw [sequencer_hold b _ _ _ hu hc] at hstep
    refine .inl ⟨rfl, by rw [hstep]; exact hb, ?_, ?_⟩
    · rw [hstep]; exact onTrack_congr rfl rfl rfl ht
    · rw [hstep, ← hus]; exact remaining_congr rfl rfl rfl
  | true =>
    rw [sequencer_done b _ _ _ hu hc] at hstep
    rcases hs with ⟨h1, h2, h3⟩ | ⟨h1, h3⟩
    · obtain rfl : us = ((u.update b i.sdaLevel).advance u).remaining := by
        rw [hus] at h3; exact (List.cons.inj h3).2
      have hne : ((u.update b i.sdaLevel).advance u).remaining ≠ [] := by
        obtain ⟨w, -, hw⟩ := remaining_step h1 h2 false
        rcases hw with ⟨-, -, h⟩ | ⟨-, h⟩ <;> rw [h] <;> exact List.cons_ne_nil _ _
      refine .inr (.inl ⟨rfl, hne, by rw [hstep]; exact h1, ?_, ?_⟩)
      · rw [hstep]; exact onTrack_congr rfl rfl rfl h2
      · rw [hstep]; exact remaining_congr rfl rfl rfl
    · obtain rfl : us = [] := by rw [hus] at h3; exact (List.cons.inj h3).2
      exact .inr (.inr ⟨rfl, rfl, by rw [hstep]; exact h1⟩)

/-- A command on track has a micro-operation before it. -/
theorem remaining_ne_nil {b : Block} (hb : b.busy = true) (ht : b.onTrack) : b.remaining ≠ [] := by
  obtain ⟨u, -, hs⟩ := remaining_step hb ht false
  rcases hs with ⟨-, -, h⟩ | ⟨-, h⟩ <;> rw [h] <;> exact List.cons_ne_nil _ _

/-- The first answer to something is no reset. -/
theorem rst_of_answered {us : List MicroOp} {e : EnvCycle} {es : List EnvCycle}
    (ha : answered us (e :: es) = true) (hne : us ≠ []) : e.rst = false := by
  cases us with
  | nil => exact absurd rfl hne
  | cons u us => simp only [answered, Bool.and_eq_true, Bool.not_eq_true'] at ha; exact ha.1

/-- Answers to exactly what remains take a running command to its end, whatever the host does: the run stops there,
and the rest of the script is left. -/
theorem runWhileBusy_answered (es rest : List EnvCycle) (s : State) (hb : s.blk.busy = true)
    (ht : s.blk.onTrack) (he : s.env = es ++ rest) (ha : answered s.blk.remaining es = true) :
    (runWhileBusy (es ++ rest) s).blk.busy = false ∧ (runWhileBusy (es ++ rest) s).env = rest ∧
      (runWhileBusy (es ++ rest) s).cycle = s.cycle + es.length := by
  induction es generalizing s with
  | nil =>
    obtain ⟨u, -, hs⟩ := remaining_step hb ht false
    rcases hs with ⟨-, -, h⟩ | ⟨-, h⟩ <;> rw [h] at ha <;> simp [answered] at ha
  | cons e es ih =>
    have hn : s.envNow = e := envNow_cons s e (es ++ rest) (by simpa using he)
    have htail : (tick s).env = es ++ rest := by simp [he]
    rw [List.cons_append, runWhileBusy_cons e _ hb]
    obtain ⟨u, us, hrem, hu, hcase⟩ :=
      blockStep_remaining (i := inputOf s.host.access e) hb ht
        (rst_of_answered ha (remaining_ne_nil hb ht))
    rw [hrem] at ha
    simp only [answered, Bool.and_eq_true] at ha
    rcases hcase with ⟨hc, h1, h2, h3⟩ | ⟨hc, -, h1, h2, h3⟩ | ⟨hc, rfl, h1⟩
    · have := ih (tick s) (by simpa [hn] using h1) (by simpa [hn] using h2) htail (by
        simp only [tick_blk, hn, h3]
        simpa [hc, show u.completes e.sclLevel e.dlyDone = false from hc] using ha.2)
      simpa [Nat.add_assoc, Nat.add_comm 1] using this
    · have := ih (tick s) (by simpa [hn] using h1) (by simpa [hn] using h2) htail (by
        simp only [tick_blk, hn, h3]
        simpa [show u.completes e.sclLevel e.dlyDone = true from hc] using ha.2)
      simpa [Nat.add_assoc, Nat.add_comm 1] using this
    · have hes : es = [] := by
        have := ha.2
        rw [if_pos (show u.completes e.sclLevel e.dlyDone = true from hc)] at this
        cases es <;> simp_all [answered]
      subst hes
      have hidle : (tick s).blk.busy = false := by simpa [hn] using h1
      rw [runWhileBusy_idle _ hidle]
      exact ⟨hidle, htail, by simp⟩

end Sys2Proof.Machine
end

