-- ==== Sys2Proof/Tests/Slice0.lean ====
section
/-! SUPPORT. Tests: well-formedness, words written out from the spec's encodings, one step of each command against
spec/95_test_vectors.md, and a witness for the hypotheses of every statement. -/

namespace Sys2Proof.Tests

open Sys2Proof Sys2Proof.Machine

/-! ### Well-formedness: one ill-formed term for each check -/

theorem test_highBit_refused : commandByteWellFormed 0x10#8 = false ∧ highBitsClear 0x10#8 = false := by decide
theorem test_opcode_refused : commandByteWellFormed 0x06#8 = false ∧ opcodeAssigned 0x06#8 = false := by decide
theorem test_bit3_refused : commandByteWellFormed 0x08#8 = false ∧ bit3OnlyInRead 0x08#8 = false := by decide
theorem test_scanCapacity_refused : scanCapacityWellFormed 0 = false ∧ scanCapacityWellFormed 1 = true := by decide
theorem test_legal_bytes_accepted :
    [0x00#8, 0x01#8, 0x02#8, 0x03#8, 0x04#8, 0x05#8, 0x0D#8].all commandByteWellFormed = true := by decide

/-! ### Decoding: the words of R90 to R92, bits 7 down to 0 -/

theorem test_decode_nop : decodeBytes [0b00000000#8] = .ok (.nop, []) := by decide
theorem test_decode_begin : decodeBytes [0b00000001#8, 0xFF#8] = .ok (.begin, [0xFF#8]) := by decide
theorem test_decode_start : decodeBytes [0b00000010#8] = .ok (.start, []) := by decide
theorem test_decode_stop : decodeBytes [0b00000011#8] = .ok (.stop, []) := by decide
theorem test_decode_write : decodeBytes [0b00000100#8] = .ok (.write, []) := by decide
theorem test_decode_readNack : decodeBytes [0b00000101#8] = .ok (.read false, []) := by decide
theorem test_decode_readAck : decodeBytes [0b00001101#8] = .ok (.read true, []) := by decide
theorem test_decode_tableWord : decodeTableWord 8 0x0D = some (.read true) ∧ decodeTableWord 8 0x0C = none := by decide

/-- V-ENC-1: the illegal bytes it lists, each with the reason R95 gives. -/
theorem test_decode_illegal :
    [0x06#8, 0x07#8].map decodeByte = [.error .opcodeUnassigned, .error .opcodeUnassigned] ∧
    [0x08#8, 0x0C#8, 0x0E#8, 0x0F#8].map decodeByte = List.replicate 4 (.error .ackBitWithoutRead) ∧
    [0x10#8, 0x15#8, 0x80#8, 0xFF#8].map decodeByte = List.replicate 4 (.error .highBitSet) ∧
    decodeBytes [] = .error .noByte := by decide

/-! ### States -/

/-- Clock and Data read high, a wait is answered. -/
def up : EnvCycle := { rst := false, sclLevel := true, sdaLevel := true, dlyDone := true }

/-- Data reads low. -/
def sdaLow : EnvCycle := { up with sdaLevel := false }

/-- Clock reads low. -/
def sclLow : EnvCycle := { up with sclLevel := false }

/-- From reset with these answers. -/
def from0 (es : List EnvCycle) : State := { State.reset with env := es }

/-- The block in the middle of a command. -/
def at0 (op : BitVec 3) (ustep : BitVec 4) : Block := { Block.reset with busy := true, op := op, ustep := ustep }

/-- The machine with its block at a position. -/
def stateAt (op : BitVec 3) (ustep : BitVec 4) (es : List EnvCycle) : State :=
  { from0 es with blk := at0 op ustep }

/-- A host write of `v` to `r`. -/
def writing (r : Reg) (v : Byte) : Input :=
  { rst := false, regWe := true, regAddr := r, regWdata := v, sclLevel := true, sdaLevel := true, dlyDone := true }

/-- A cycle without an access. -/
def quiet : Input := { writing .cmd 0x00#8 with regWe := false }

/-! ### One step of each command -/

/-- V-ENC-1: NOP from reset changes nothing of the block. -/
theorem test_nop : ∃ t, step ((from0 [up]).withFetchWord 8 0x00) = .next t ∧ t.blk = Block.reset := ⟨_, rfl, by decide⟩

/-- V-BEGIN-3 with one low poll: the events, and idle again with both lines released. -/
theorem test_begin : ∃ t, step ((from0 [up, up, up, sclLow, up]).withFetchWord 8 0x01) = .next t ∧
    t.events = [.drive .data .released, .drive .clock .released, .sampleScl false, .sampleScl true] ∧
    t.blk = Block.reset := ⟨_, rfl, by decide, by decide⟩

/-- V-ENC-1: BEGIN accepted, no answer yet. -/
theorem test_begin_accepted : ∃ t, step (State.reset.withFetchWord 8 0x01) = .next t ∧
    t.blk = { Block.reset with busy := true, op := 1#3 } := ⟨_, rfl, by decide⟩

/-- V-START-1: both lines driven low at the end. -/
theorem test_start : ∃ t, step ((from0 (List.replicate 10 up)).withFetchWord 8 0x02) = .next t ∧
    t.blk = { Block.reset with sclDrv := .drivenLow, sdaDrv := .drivenLow } := ⟨_, rfl, by decide⟩

/-- V-STOP-1: both lines released at the end. -/
theorem test_stop : ∃ t,
    exec .stop { from0 (List.replicate 10 up) with
      blk := { Block.reset with sclDrv := .drivenLow, sdaDrv := .drivenLow } } = .next t ∧
    t.blk = Block.reset := ⟨_, rfl, by decide⟩

/-- V-WRITE-7: WRITE of 0xA5 after START, ten busy cycles done. -/
theorem test_write_midFlight : ∃ t,
    exec .write { from0 (List.replicate 11 up) with
      blk := { Block.reset with sclDrv := .drivenLow, sdaDrv := .drivenLow, txdata := 0xA5#8 } } = .next t ∧
    t.blk = { Block.reset with
      busy := true, op := 4#3, ustep := 3#4, bitcnt := 1#4, shreg := 0x4A#8, sclDrv := .drivenLow,
      sdaDrv := .drivenLow, txdata := 0xA5#8 } := ⟨_, rfl, by decide⟩

/-- V-WRITE-1, the end of cycle 63: a low sample gives ACK. -/
theorem test_write_ack :
    (blockStep (at0 4#3 13#4) { quiet with sdaLevel := false }).ack = true ∧
    (blockStep (at0 4#3 13#4) quiet).ack = false := by decide

/-- V-READ-1, cycles 1 to 7: the first sample enters bit 0 of the shifter and the loop goes back to ustep 1. -/
theorem test_read_firstBit : ∃ t, exec (.read true) (from0 (List.replicate 8 up)) = .next t ∧
    t.blk.shreg = 0x01#8 ∧ t.blk.ustep = 1#4 ∧ t.blk.ackpol = true := ⟨_, rfl, by decide, by decide, by decide⟩

/-- V-READ-1, cycles 51 and 58: the ACK on Data, and the byte latched at the end. -/
theorem test_read_end :
    (blockStep { at0 5#3 8#4 with ackpol := true } quiet).sdaDrv = .drivenLow ∧
    (blockStep { at0 5#3 15#4 with shreg := 0xB2#8 } quiet).rxdata = 0xB2#8 ∧
    (blockStep { at0 5#3 15#4 with shreg := 0xB2#8 } quiet).busy = false := by decide

/-! ### The register port and rejection -/

/-- V-REG-1 and V-REG-3: STATUS at reset on an idle bus, and after START. -/
theorem test_status :
    statusByte Block.reset true true = 0x0C#8 ∧
    statusByte { Block.reset with sclDrv := .drivenLow, sdaDrv := .drivenLow } false false = 0x30#8 := by decide

/-- V-ERR-1: an illegal byte sets CMDERR, 0x40 to STATUS clears it, 0xBF does not. -/
theorem test_cmderr :
    blockStep Block.reset (writing .cmd 0x06#8) = { Block.reset with cmderr := true } ∧
    blockStep { Block.reset with cmderr := true } (writing .status 0x40#8) = Block.reset ∧
    blockStep { Block.reset with cmderr := true } (writing .status 0xBF#8) = { Block.reset with cmderr := true } := by
  decide

/-- V-ERR-3: a command in a command's last cycle is rejected and the command still finishes. -/
theorem test_lastCycle_rejected : ∃ t, exec .start (stateAt 1#3 2#4 [up, up]) = .next t ∧
    t.blk = { Block.reset with cmderr := true } := ⟨_, rfl, by decide⟩

/-- V-RST-2: reset with a write to TXDATA in the same cycle. -/
theorem test_reset_wins :
    blockStep (at0 4#3 3#4) { writing .txdata 0x55#8 with rst := true } = Block.reset := by decide

/-- V-ENC-2 and S8: address bytes. -/
theorem test_addressByte : addressByte 0x42#7 true = 0x85#8 ∧ probeByte 0x20 = 0x40#8 := by decide

/-- S5: SCAN with capacity 1 finds 0x20 and stops. -/
theorem test_scan_stops :
    scanLoop (fun a => a = 0x20#7 ∨ a = 0x42#7) 5 1 [0x1F, 0x20, 0x42] { count := 0, cells := [] }
      = { count := 1, cells := [(5, 0x20#7)] } := by decide

/-- R181: a second SCAN with another array leaves what the first one stored. -/
theorem test_scan_keeps_earlier :
    scanLoop (fun a => a = 0x42#7) 0 2 [0x20, 0x42] { count := 0, cells := [(5, 0x20#7)] }
      = { count := 1, cells := [(0, 0x42#7), (5, 0x20#7)] } := by decide

/-! ### Witnesses: the hypotheses of each statement hold together somewhere -/

theorem witness_StepRunsIssuedCommand :
    ((from0 []).withCommandByte 0x0D#8).host.prog = [.wr .cmd 0x0D#8] := rfl
theorem witness_StepRunsIssuedCommand_decodes :
    decodeCommand 0x0D#8 = some (.read true) ∧ decodeTableWord 8 0x02 = some .start ∧
    decodeCommand 0x06#8 = none := by decide
theorem witness_StepOnOneAnswer : (from0 [up]).env.length ≤ 1 ∧ (from0 []).env.length ≤ 1 := by decide
theorem witness_ResetBeatsEverything :
    (from0 [{ up with rst := true }]).envNow.rst = true ∧ { quiet with rst := true }.rst = true := by decide
theorem witness_RegisterReadValues : [Reg.cmd, .status, .txdata, .rxdata].map Reg.address = [0#2, 1#2, 2#2, 3#2] := by
  decide
theorem witness_RegisterWriteEffects :
    (writing .status 0x40#8).rst = false ∧ (writing .status 0x40#8).regWe = true ∧
    (writing .rxdata 0x77#8).regAddr = .rxdata := by decide
theorem witness_AcceptanceLoadsPosition :
    (at0 2#3 8#4).busy = true ∧ Block.reset.busy = false ∧ decodeCommand 0x0E#8 = none ∧
    0x03#8 ∈ [0x01#8, 0x02#8, 0x03#8] ∧ (writing .cmd 0x0D#8).regWdata ∈ [0x05#8, 0x0D#8] := by decide
theorem witness_RejectedCommand :
    (stateAt 1#3 2#4 [up]).blk.busy = true ∧ (stateAt 1#3 2#4 [up]).envNow.rst = false ∧
    (({ from0 [up] with host := { (from0 []).host with prog := [.wr .cmd 0x06#8] } } : State).host.prog
      = [.wr .cmd 0x06#8]) ∧
    ¬((writing .status 0x3F#8).regWe = true ∧ (writing .status 0x3F#8).regAddr = .status ∧
      (writing .status 0x3F#8).regWdata.getLsbD 6 = true) ∧
    { Block.reset with cmderr := true }.cmderr = true := by decide
theorem witness_EveryWait : (at0 2#3 8#4).dlyReq = true ∧ (at0 5#3 12#4).dlyReq = true := by decide
theorem witness_NoCycleChangesBothLines :
    (blockStep (at0 2#3 7#4) quiet).sclDrv ≠ (at0 2#3 7#4).sclDrv ∧
    (blockStep (at0 2#3 5#4) quiet).sdaDrv ≠ (at0 2#3 5#4).sdaDrv := by decide
theorem witness_ContractLevels :
    up.keepsContract Block.reset BusPull.none = true ∧
    { up with sclLevel := false, sdaLevel := false }.keepsContract
      { Block.reset with sclDrv := .drivenLow } { extSclLow := false, extSdaLow := true } = true := by decide
theorem witness_DataChanges :
    (at0 2#3 5#4).positionOk = true ∧ (at0 2#3 5#4).linesOk = true ∧
    (blockStep (at0 2#3 5#4) quiet).sdaDrv ≠ (at0 2#3 5#4).sdaDrv := by decide
theorem witness_Conditions :
    { at0 3#3 7#4 with sdaDrv := .drivenLow }.positionOk = true ∧
    { at0 3#3 7#4 with sdaDrv := .drivenLow }.linesOk = true := by decide
theorem witness_WriteDrivesOperandBits :
    { at0 4#3 6#4 with shreg := 0x80#8, bitcnt := 7#4, sdaDrv := .released }.sendsByte 0x01#8 = true ∧
    { at0 4#3 6#4 with shreg := 0x80#8, bitcnt := 7#4, sdaDrv := .released }.positionOk = true := by decide
theorem witness_ready : (from0 [up]).ready = true ∧ (from0 [up]).host.waiting = true ∧ (from0 [up]).noReset = true := by
  decide
theorem witness_BeginCompletes :
    (from0 ([up] ++ [up, up, sclLow, up])).env = up :: ([up, up, sclLow, up] ++ []) ∧
    answered (unrolled .begin) [up, up, sclLow, up] = true := by decide
theorem witness_StartCompletes : answered (unrolled .start) (List.replicate 9 up) = true := by decide
theorem witness_StopCompletes : answered (unrolled .stop) (List.replicate 9 up) = true := by decide
theorem witness_WriteCompletes : answered (unrolled .write) (List.replicate 64 sdaLow) = true := by decide
theorem witness_ReadCompletes (a : Bool) : answered (unrolled (.read a)) (List.replicate 58 up) = true := by
  cases a <;> decide
theorem witness_FinishedCommand : ∃ t, exec .begin (from0 [up, up, up, up]) = .next t ∧ t.blk.busy = false :=
  ⟨_, rfl, by decide⟩
theorem witness_ClockHeldLow :
    (stateAt 1#3 2#4 [sclLow, sclLow]).blk.current = some .sclPoll ∧
    2 ≤ (stateAt 1#3 2#4 [sclLow, sclLow]).env.length ∧
    ∀ e ∈ (stateAt 1#3 2#4 [sclLow, sclLow]).env, e.rst = false ∧ e.sclLevel = false := by decide
theorem witness_EveryOperationRun :
    State.reset.blk.busy = false ∧
    [0, 3, 0, 0, 0, 0, 0, 0, 1].length = (opProgram 0xA5#8 .write).count .sclRaise ∧
    [true].length = (opProgram 0xA5#8 .write).countP Prim.samplesData := by decide
theorem witness_Invariant :
    State.reset.wf = true ∧ (stateAt 2#3 5#4 []).wf = true ∧
    { at0 4#3 7#4 with bitcnt := 8#4 }.positionOk = true := by decide
theorem witness_CommandsIgnoreLeftovers :
    ({ from0 [up] with blk := { Block.reset with shreg := 0xB2#8, ack := true } } : State).blk.txdata
      = (from0 [up]).blk.txdata := by decide
theorem witness_RunningCommandIgnoresTxdata : (at0 4#3 3#4).busy = true ∧ quiet.rst = false := by decide
theorem witness_StartThenStop :
    (from0 (up :: (List.replicate 9 up ++ up :: (List.replicate 9 up ++ [])))).ready = true ∧
    Block.reset.positionOk = true ∧ Block.reset.sclDrv = .released ∧ Block.reset.sdaDrv = .released := by decide
theorem witness_BeginIsIdempotent : answered (unrolled .begin) [up, up, up] = true ∧ up.rst = false := by decide
theorem witness_WaitIdle :
    ({ from0 [up] with host := { (from0 []).host with prog := [.waitIdle] } } : State).host.prog = [.waitIdle] := by
  decide
theorem witness_Writeb :
    (from0 (up :: up :: (List.replicate 64 up ++ up :: up :: []))).noReset = true ∧
    (Pseudo.writeB 0xA5#8).expand ++ [] =
      [.wr .txdata 0xA5#8, .wr .cmd 0x04#8, .waitIdle, .rd .status] := by decide
theorem witness_Readb :
    (from0 (up :: (List.replicate 58 up ++ up :: up :: []))).noReset = true ∧
    (Pseudo.readB true).expand ++ [] = [.wr .cmd 0x0D#8, .waitIdle, .rd .rxdata] := by decide
theorem witness_Scan :
    scanCapacityWellFormed 1 = true ∧ 8 ≤ 119 ∧ 119 ≤ 119 ∧
    ({ prog := [.scanTest 5 1 119], reads := [0x02#8], scan := { count := 0, cells := [] } } : HostAgent).lastAck
      = true := by decide
theorem witness_ScanProbeRound :
    (from0 (up :: up :: (List.replicate 9 up ++ up :: up :: up :: (List.replicate 64 up ++ up :: up :: up ::
      (List.replicate 9 up ++ []))))).noReset = true := by decide

/-- A round of SCAN in which nobody answers. -/
def quietRound : ScanRound where
  probe := up
  startIssue := up
  start := List.replicate 9 up
  startIdle := up
  address := up
  writeIssue := up
  write := List.replicate 64 up
  writeIdle := up
  statusRead := up
  stopIssue := up
  stop := List.replicate 9 up
  stopIdle := up
  settle := List.replicate (Config.settleMicroseconds * Config.cyclesPerMicrosecond + 2) up
  test := up

theorem witness_ScanRun_complete : quietRound.complete = true := by
  have h1 : answered (unrolled .start) (List.replicate 9 up) = true := by decide
  have h2 : answered (unrolled .write) (List.replicate 64 up) = true := by decide
  have h3 : answered (unrolled .stop) (List.replicate 9 up) = true := by decide
  simp only [ScanRound.complete, quietRound, h1, h2, h3, List.length_replicate, Bool.and_self, beq_self_eq_true]

theorem witness_ScanRun_noReset :
    (from0 (up :: ((List.replicate 112 quietRound).flatMap ScanRound.script ++ []))).noReset = true := by
  have hup : ∀ e ∈ quietRound.script, e = up := by
    intro e he
    simp only [ScanRound.script, quietRound, List.mem_append, List.mem_cons, List.mem_replicate, List.not_mem_nil]
      at he
    tauto
  simp only [State.noReset, from0, List.all_eq_true]
  intro e he
  simp only [List.append_nil, List.mem_cons, List.mem_flatMap, List.mem_replicate] at he
  rcases he with rfl | ⟨r, ⟨-, rfl⟩, he⟩
  · rfl
  · rw [hup e he]; rfl

theorem witness_ScanRun_ack :
    quietRound.ack = false ∧ { quietRound with write := List.replicate 64 sdaLow }.ack = true := by decide

theorem witness_ScanStarts :
    ({ from0 [up] with host := { (from0 []).host with prog := [.scan 5 2] } } : State).host.prog = [.scan 5 2] := rfl

/-- The step that stores the only device found, in cell 5. -/
theorem witness_OnlyScanStores :
    let h : HostAgent := { prog := [.scanTest 5 1 119], reads := [0x02#8], scan := { count := 0, cells := [] } }
    HostMemory.read (tick { from0 [up] with host := h }).host.scan.cells 5 = some 119#7 := by decide

end Sys2Proof.Tests
end

/-! PROOFS. What a running command looks at in its block, and that two machines alike in that run alike (R12, R24,
conflict C7). -/

namespace Sys2Proof.Machine

/-- Every command is `runCommand` with what it loads when it is accepted (R141, R204). -/
theorem exec_eq_runCommand (i : Instr) (s : State) : exec i s = .next (runCommand i (acceptCommand i) s) := by
  cases i <;> rfl

/-- Two blocks at one position of one command, with the same shifter where the command is WRITE and the same
acknowledgment policy where it is READ: alike in all that decides the drives, the waits and the position. -/
structure Block.Alike (b c : Block) : Prop where
  busy : c.busy = b.busy
  op : c.op = b.op
  ustep : c.ustep = b.ustep
  bitcnt : c.bitcnt = b.bitcnt
  shreg : b.op = 4#3 → c.shreg = b.shreg
  ackpol : b.op = 5#3 → c.ackpol = b.ackpol

/-- A current micro-operation is that at the position of a busy block (R200). -/
theorem current_eq_some {b : Block} {u : MicroOp} :
    b.current = some u ↔ b.busy = true ∧ (microProgram b.op)[b.ustep.toNat]? = some u := by
  cases hb : b.busy <;> simp [Block.current, Block.atPosition, hb]

/-- SDA_BIT stands in WRITE's micro-program alone (R202). -/
theorem op_of_current_sdaBit {b : Block} (h : b.current = some .sdaBit) : b.op = 4#3 := by
  have key : ∀ (op : BitVec 3) (k : BitVec 4), (microProgram op)[k.toNat]? = some .sdaBit → op = 4#3 := by decide
  exact key b.op b.ustep (current_eq_some.1 h).2

/-- SDA_ACK stands in READ's micro-program alone (R202). -/
theorem op_of_current_sdaAck {b : Block} (h : b.current = some .sdaAck) : b.op = 5#3 := by
  have key : ∀ (op : BitVec 3) (k : BitVec 4), (microProgram op)[k.toNat]? = some .sdaAck → op = 5#3 := by decide
  exact key b.op b.ustep (current_eq_some.1 h).2

section Alike

variable {b c : Block} {a a' : Access}

theorem Block.Alike.refl (b : Block) : b.Alike b := ⟨rfl, rfl, rfl, rfl, fun _ => rfl, fun _ => rfl⟩

/-- What an idle block held before acceptance is not seen, but for TXDATA (R78, R204). -/
theorem Block.Alike.accept {i : Instr} (hi : i ≠ .nop) (htx : c.txdata = b.txdata) :
    (acceptCommand i b).Alike (acceptCommand i c) := by
  cases i with
  | nop => exact absurd rfl hi
  | write =>
    refine ⟨rfl, rfl, rfl, rfl, fun _ => htx, ?_⟩
    simp [acceptCommand, acceptWrite]
  | read a => exact ⟨rfl, rfl, rfl, rfl, fun _ => rfl, fun _ => rfl⟩
  | begin => constructor <;> simp [acceptCommand, acceptBegin]
  | start => constructor <;> simp [acceptCommand, acceptStart]
  | stop => constructor <;> simp [acceptCommand, acceptStop]

theorem Block.Alike.current (h : b.Alike c) : c.current = b.current := by
  simp [Block.current, Block.atPosition, h.busy, h.op, h.ustep]

theorem Block.Alike.dlyReq (h : b.Alike c) : c.dlyReq = b.dlyReq := by
  simp [Block.dlyReq, h.current]

theorem Block.Alike.update (h : b.Alike c) (u : MicroOp) (sda : Bool) :
    (u.update b sda).Alike (u.update c sda) := by
  cases u <;> constructor <;> simp +contextual [MicroOp.update, h.busy, h.op, h.ustep, h.bitcnt, h.shreg, h.ackpol]

theorem Block.Alike.branch (h : b.Alike c) (top : BitVec 4) : (b.branch top).Alike (c.branch top) :=
  ⟨h.busy, h.op, by simp [h.bitcnt], h.bitcnt, h.shreg, h.ackpol⟩

/-- Any two blocks are alike when their commands have finished (R205). -/
theorem finish_alike (b c : Block) : b.finish.Alike c.finish := by
  constructor <;> simp

theorem Block.Alike.advance (h : b.Alike c) (u : MicroOp) : (b.advance u).Alike (c.advance u) := by
  have hlast : c.atLast = b.atLast := by simp [Block.atLast, h.op, h.ustep]
  have hnext : (if b.atLast then b.finish else { b with ustep := b.ustep + 1#4 }).Alike
      (if c.atLast then c.finish else { c with ustep := c.ustep + 1#4 }) := by
    rw [hlast]
    split
    · exact finish_alike b c
    · exact ⟨h.busy, h.op, by simp [h.ustep], h.bitcnt, h.shreg, h.ackpol⟩
  cases u with
  | shift => exact h.branch 0#4
  | bitSample => exact h.branch 1#4
  | _ => exact hnext

theorem Block.Alike.sequencer (h : b.Alike c) (scl sda dly : Bool) :
    (sequencer b scl sda dly).Alike (sequencer c scl sda dly) := by
  rcases sequencer_cases b scl sda dly with ⟨hu, hs⟩ | ⟨u, hu, hc, hs⟩ | ⟨u, hu, hc, hs⟩
  · rw [hs]
    simpa [Machine.sequencer, h.current, hu] using h
  · rw [hs, sequencer_hold c _ _ _ (h.current.trans hu) hc]
    exact h
  · rw [hs, sequencer_done c _ _ _ (h.current.trans hu) hc]
    exact (h.update u sda).advance u

theorem Block.Alike.blockStep (h : b.Alike c) (ha : a.we = false) (ha' : a'.we = false) (e : EnvCycle) :
    (blockStep b (inputOf a e)).Alike (blockStep c (inputOf a' e)) := by
  cases hr : e.rst with
  | true =>
    rw [blockStep_rst b _ hr, blockStep_rst c _ hr]
    exact .refl _
  | false =>
    rw [blockStep_noWrite b _ hr ha, blockStep_noWrite c _ hr ha']
    exact h.sequencer _ _ _

/-- The only micro-operations whose events depend on more than the answers are SDA_BIT and SDA_ACK (R131, R206). -/
theorem Block.Alike.microOpEvents (h : b.Alike c) {u : MicroOp} (hu : b.current = some u) (scl sda dly : Bool) :
    u.events c scl sda dly = u.events b scl sda dly := by
  cases u with
  | sdaBit => simp [MicroOp.events, Block.nextBit, h.shreg (op_of_current_sdaBit hu)]
  | sdaAck => simp [MicroOp.events, h.ackpol (op_of_current_sdaAck hu)]
  | _ => rfl

theorem Block.Alike.cycleEvents (h : b.Alike c) (ha : a.we = false) (ha' : a'.we = false) (e : EnvCycle) :
    cycleEvents c (inputOf a' e) = cycleEvents b (inputOf a e) := by
  have hd := (h.blockStep ha ha' e).dlyReq
  cases hu : b.current with
  | none => simp [Machine.cycleEvents, h.current, hu]
  | some u => simp [Machine.cycleEvents, h.current, hu, h.microOpEvents hu, h.dlyReq, hd]

end Alike

/-- From `s` to `t` and from `s'` to `t'` the same events, with the same answers left and BUSY alike. -/
def State.SameMoves (s s' t t' : State) : Prop :=
  ∃ evs, t.events = s.events ++ evs ∧ t'.events = s'.events ++ evs ∧ t'.env = t.env ∧ t'.blk.busy = t.blk.busy

/-- Machines with alike blocks, the same script and waiting hosts run alike, resets in the script included. -/
theorem runWhileBusy_alike (es : List EnvCycle) (s s' : State) (h : s.blk.Alike s'.blk) (he : s.env = es)
    (he' : s'.env = es) (hw : s.host.waiting = true) (hw' : s'.host.waiting = true) :
    State.SameMoves s s' (runWhileBusy es s) (runWhileBusy es s') := by
  induction es generalizing s s' with
  | nil => exact ⟨[], by simp, by simp, by simp [he, he'], h.busy⟩
  | cons e es ih =>
    cases hb : s.blk.busy with
    | false =>
      rw [runWhileBusy_idle _ hb, runWhileBusy_idle _ (h.busy.trans hb)]
      exact ⟨[], by simp, by simp, by simp [he, he'], h.busy⟩
    | true =>
      have hb' : s'.blk.busy = true := h.busy.trans hb
      have ha := waiting_access hw
      have ha' := waiting_access hw'
      have hn := envNow_cons s e es he
      have hn' := envNow_cons s' e es he'
      obtain ⟨evs, h1, h2, h3⟩ := ih (tick s) (tick s')
        (by simpa [hn, hn'] using h.blockStep ha ha' e) (by simp [he]) (by simp [he'])
        (by rwa [tick_host, waiting_next hw hb]) (by rwa [tick_host, waiting_next hw' hb'])
      rw [runWhileBusy_cons e es hb, runWhileBusy_cons e es hb']
      refine ⟨cycleEvents s.blk (inputOf s.host.access e) ++ evs, ?_, ?_, h3⟩
      · simp [h1, hn]
      · simp [h2, hn', h.cycleEvents ha ha' e]

/-- A command issued in a cycle with reset is lost and, on an idle block or not, makes no event (R234 (1)). -/
theorem runCommand_lost (i : Instr) (f : Block → Block) {s : State} (hr : s.envNow.rst = true) :
    runCommand i f s = { s with blk := Block.reset, env := s.env.tail, cycle := s.cycle + 1 } := by
  have hi : issueCycle i f s = { s with blk := Block.reset, env := s.env.tail, cycle := s.cycle + 1 } := by
    simp [issueCycle, issueBlock, cycleEvents, hr]
  have hb : (issueCycle i f s).blk.busy = false := by rw [hi]; rfl
  simp only [runCommand, runWhileBusy_idle _ hb, ite_self]
  exact hi

/-- NOP on an idle block leaves all but the answer of its cycle (R140). -/
theorem runCommand_nop {s : State} (hb : s.blk.busy = false) (hr : s.envNow.rst = false) :
    runCommand .nop acceptNop s = { s with env := s.env.tail, cycle := s.cycle + 1 } := by
  rw [runCommand_ready _ _ hb hr]
  exact runWhileBusy_idle _ hb

/-- Settles O39: a command issued in a cycle with reset and a NOP make no event; any other is accepted, which leaves
two idle blocks with the same TXDATA alike, and alike blocks run alike. -/
theorem commandsIgnoreLeftovers : Obligations.CommandsIgnoreLeftovers := by
  unfold Obligations.CommandsIgnoreLeftovers
  intro i s s' hb hb' htx he hrst hw hw'
  suffices h : State.SameMoves s s' (runCommand i (acceptCommand i) s) (runCommand i (acceptCommand i) s') by
    obtain ⟨evs, h⟩ := h
    exact ⟨_, _, evs, exec_eq_runCommand i s, exec_eq_runCommand i s', h⟩
  cases hr : s.envNow.rst with
  | true =>
    rw [runCommand_lost _ _ hr, runCommand_lost _ _ (hrst ▸ hr)]
    exact ⟨[], by simp, by simp, by simp [he], rfl⟩
  | false =>
    have hr' : s'.envNow.rst = false := hrst ▸ hr
    by_cases hi : i = .nop
    · subst hi
      simp only [acceptCommand, runCommand_nop hb hr, runCommand_nop hb' hr']
      exact ⟨[], by simp, by simp, by simp [he], hb'.trans hb.symm⟩
    · rw [runCommand_ready _ _ hb hr, runCommand_ready _ _ hb' hr', he]
      exact runWhileBusy_alike s.env.tail _ _ (.accept hi htx) rfl rfl hw hw'

end Sys2Proof.Machine

/-! PROOFS. A run of micro-operations at the operation level: what the sequencer makes of a command on answers that
take it to its end, without the cycles (R206, R210). -/

namespace Sys2Proof.Machine

/-- A completed micro-operation at the operation level, the accumulator in the place of SHREG; `ap` is ACKPOL.
Releasing Clock and polling it are the two halves of `scl_raise()` (R126, R206). -/
def MicroOp.perform (ap : Bool) (u : MicroOp) (o : OpState) : OpState :=
  match u with
  | .sclLow => Prim.sclLow.run o
  | .sclRel => { o with scl := .released, events := o.events ++ [.drive .clock .released] }
  | .sdaLow => Prim.sdaLow.run o
  | .sdaRel => Prim.sdaRelease.run o
  | .sdaBit => (Prim.sdaSet (o.acc.getLsbD 7)).run o
  | .sdaAck => (Prim.sdaSet (!ap)).run o
  | .wait => Prim.wait.run o
  | .sclPoll =>
    { o with
      polls := o.polls.tail
      events := o.events ++ (List.replicate (o.polls.headD 0) (.sampleScl false) ++ [.sampleScl true]) }
  | .shift => { o with acc := shiftIn o.acc false }
  | .bitSample => Prim.sampleBit.run o
  | .ackSample => Prim.sampleAck.run o
  | .latchRx => Prim.deliver.run o

/-- Micro-operations one after the other. -/
def performAll (ap : Bool) (us : List MicroOp) (o : OpState) : OpState := us.foldl (fun o u => u.perform ap o) o

/-- The same with the accumulator `x`. -/
def OpState.withAcc (o : OpState) (x : Byte) : OpState := { o with acc := x }

section Pseudocode

variable (ap : Bool) (o : OpState)

@[simp] theorem performAll_nil : performAll ap [] o = o := rfl
@[simp] theorem performAll_cons (u : MicroOp) (us : List MicroOp) :
    performAll ap (u :: us) o = performAll ap us (u.perform ap o) := rfl
theorem performAll_append (us vs : List MicroOp) :
    performAll ap (us ++ vs) o = performAll ap vs (performAll ap us o) := List.foldl_append

@[simp] theorem opRun_nil : opRun [] o = o := rfl
@[simp] theorem opRun_cons (p : Prim) (ps : List Prim) : opRun (p :: ps) o = opRun ps (p.run o) := rfl
theorem opRun_append (ps qs : List Prim) : opRun (ps ++ qs) o = opRun qs (opRun ps o) := List.foldl_append

/-- `scl_raise()` is a release and the polls (R126). -/
theorem perform_sclRaise : MicroOp.sclPoll.perform ap (MicroOp.sclRel.perform ap o) = Prim.sclRaise.run o := by
  simp [MicroOp.perform, Prim.run, raiseEvents]

/-- A SHIFT moves the shifter one place up (R24, R161). -/
theorem shiftIn_false (x : Byte) : shiftIn x false = x <<< 1 := by
  ext k hk
  rw [shiftIn, BitVec.getElem_append]
  cases k with
  | zero => simp
  | succ k => simp [BitVec.getLsbD_eq_getElem (show k < 8 by omega)]

/-- A round of WRITE's bit loop is one bit of the pseudocode, the top bit of the shifter (R160, R161). -/
theorem performAll_writeRound (x : Byte) :
    performAll ap (writeProgram.take 7) (o.withAcc x)
      = (opRun (writeBitPrims (x.getLsbD 7)) o).withAcc (x <<< 1) := by
  rw [← shiftIn_false]
  simp only [writeProgram, writeBitPrims, List.take, performAll_cons, performAll_nil, opRun_cons, opRun_nil,
    perform_sclRaise]
  rfl

/-- `n` rounds of WRITE's bit loop send the top `n` bits of the shifter (R160, R161). -/
theorem performAll_writeRounds (x : Byte) (n : Nat) (hn : n ≤ 8) :
    performAll ap (List.replicate n (writeProgram.take 7)).flatten (o.withAcc x)
      = (opRun ((List.range n).flatMap fun k => writeBitPrims (x.getLsbD (7 - k))) o).withAcc (x <<< n) := by
  induction n with
  | zero => simp
  | succ n ih =>
    have hbit : (x <<< n).getLsbD 7 = x.getLsbD (7 - n) := by
      simp [BitVec.getLsbD_eq_getElem (show 7 - n < 8 by omega), show ¬7 < n by omega]
    rw [List.replicate_succ', List.flatten_append, performAll_append, ih (by omega), List.flatten_singleton,
      performAll_writeRound, hbit, List.range_succ, List.flatMap_append, opRun_append, List.flatMap_singleton,
      ← BitVec.shiftLeft_add]

/-- A round of READ's bit loop is one bit of the pseudocode (R164, R165). -/
theorem performAll_readRound :
    performAll ap ((readProgram.drop 1).take 6) o = opRun readBitPrims o := by
  simp only [readProgram, readBitPrims, List.take, List.drop, performAll_cons, performAll_nil, opRun_cons,
    opRun_nil, perform_sclRaise]
  rfl

theorem performAll_readRounds (n : Nat) :
    performAll ap (List.replicate n ((readProgram.drop 1).take 6)).flatten o
      = opRun (List.replicate n readBitPrims).flatten o := by
  induction n generalizing o with
  | zero => rfl
  | succ n ih =>
    simp only [List.replicate_succ, List.flatten_cons, performAll_append, opRun_append, performAll_readRound, ih]

/-- The conditions do not use the accumulator (R142, R144, R146). -/
theorem performAll_condition {i : Instr} (hi : i = .begin ∨ i = .start ∨ i = .stop) (x v : Byte) :
    performAll ap (unrolled i) (o.withAcc x) = (opRun (opProgram v i) o).withAcc x := by
  rcases hi with rfl | rfl | rfl <;>
    simp only [unrolled, beginProgram, startProgram, stopProgram, opProgram, performAll_cons, performAll_nil,
      opRun_cons, opRun_nil, perform_sclRaise] <;>
    rfl

/-- WRITE's ninth clock (R162). -/
theorem performAll_writeEnd (x : Byte) :
    performAll ap (writeProgram.drop 7) (o.withAcc x)
      = (opRun [.sclLow, .sdaRelease, .wait, .sclRaise, .wait, .sampleAck, .sclLow] o).withAcc x := by
  simp only [writeProgram, List.drop, performAll_cons, performAll_nil, opRun_cons, opRun_nil, perform_sclRaise]
  rfl

theorem performAll_write (v : Byte) :
    performAll ap (unrolled .write) (o.withAcc v) = (opRun (opProgram v .write) o).withAcc (v <<< 8) := by
  have hbits : [7, 6, 5, 4, 3, 2, 1, 0].flatMap (fun k => writeBitPrims (v.getLsbD k))
      = (List.range 8).flatMap fun k => writeBitPrims (v.getLsbD (7 - k)) := by simp [List.range_succ]
  rw [unrolled, performAll_append, performAll_writeRounds ap o v 8 le_rfl, performAll_writeEnd, opProgram,
    opRun_append, hbits]

/-- READ's ninth clock and the delivery of the byte (R164, R166). -/
theorem performAll_readEnd (a : Bool) :
    performAll a (readProgram.drop 7) o
      = opRun [.sclLow, .sdaSet (!a), .wait, .sclRaise, .wait, .sclLow, .sdaRelease, .deliver] o := by
  simp only [readProgram, List.drop, performAll_cons, performAll_nil, opRun_cons, opRun_nil, perform_sclRaise]
  rfl

theorem performAll_read (v : Byte) (a : Bool) :
    performAll a (unrolled (.read a)) o = opRun (opProgram v (.read a)) o := by
  simp only [unrolled, opProgram, performAll_append, opRun_append, performAll_readRounds, performAll_readEnd]
  rfl

end Pseudocode

end Sys2Proof.Machine

/-! PROOFS. A command answered to its end, cycle by cycle, makes the run of the operation level (R210). -/

namespace Sys2Proof.Machine

/-- The block has the lines, the results and the accumulator of the operation-level run `o`, and the policy `ap`. -/
structure Block.Agrees (b : Block) (ap : Bool) (o : OpState) : Prop where
  sclDrv : b.sclDrv = o.scl
  sdaDrv : b.sdaDrv = o.sda
  ack : b.ack = o.ack
  shreg : b.shreg = o.acc
  rxdata : b.rxdata = o.rxdata
  ackpol : b.ackpol = ap

/-- The events already made of the current micro-operation: the begin of a wait, or the `k` polls that read low so
far (R61, R126, R131). -/
def Block.pending (b : Block) (k : Nat) : List Event :=
  match b.current with
  | some .wait => [.waitBegin]
  | some .sclPoll => List.replicate k (.sampleScl false)
  | _ => []

section Cycle

variable {b : Block} {ap : Bool} {o : OpState} {u : MicroOp} {i : Input}

@[simp] theorem perform_polls (ap : Bool) (u : MicroOp) (o : OpState) :
    (u.perform ap o).polls = if u = .sclPoll then o.polls.tail else o.polls := by
  cases u <;> rfl

@[simp] theorem perform_data (ap : Bool) (u : MicroOp) (o : OpState) :
    (u.perform ap o).data = if u.samplesData then o.data.tail else o.data := by
  cases u <;> rfl

theorem pending_idle (k : Nat) (h : b.busy = false) : b.pending k = [] := by
  simp [Block.pending, current_of_idle b h]

/-- At its start a micro-operation has made no event but the begin of its wait. -/
theorem pending_zero : b.pending 0 = if b.dlyReq then [.waitBegin] else [] := by
  unfold Block.pending Block.dlyReq
  split <;> simp_all

/-- A micro-operation that is held stays current (R203). -/
theorem current_blockStep_held (hr : i.rst = false) (hu : b.current = some u)
    (hc : u.completes i.sclLevel i.dlyDone = false) : (blockStep b i).current = some u := by
  obtain ⟨tx, ce, hstep⟩ := blockStep_busy b i hr (busy_of_current b hu)
  rw [hstep, sequencer_hold b _ _ _ hu hc]
  exact hu

/-- A completed wait is not followed by a wait (R61, R202). -/
theorem dlyReq_blockStep_wait (hr : i.rst = false) (hu : b.current = some .wait) (hc : i.dlyDone = true) :
    (blockStep b i).dlyReq = false := by
  have key : ∀ (op : BitVec 3) (k : BitVec 4), (microProgram op)[k.toNat]? = some .wait →
      (microProgram op)[(k + 1#4).toNat]? ≠ some .wait := by decide
  obtain ⟨hb, hpos⟩ := current_eq_some.1 hu
  obtain ⟨tx, ce, hstep⟩ := blockStep_busy b i hr hb
  rw [hstep, sequencer_done b _ _ _ hu hc]
  cases hl : b.atLast with
  | true => simp [MicroOp.update, Block.advance, hl, Block.dlyReq, current_eq_some]
  | false => simpa [MicroOp.update, Block.advance, hl, Block.dlyReq, current_eq_some, hb] using key b.op b.ustep hpos

/-- A held micro-operation makes a low sample of Clock when it polls, and no event else (R126, R131). -/
theorem cycleEvents_held (k : Nat) (hr : i.rst = false) (hu : b.current = some u)
    (hc : u.completes i.sclLevel i.dlyDone = false) :
    b.pending k ++ cycleEvents b i = (blockStep b i).pending (if u = .sclPoll then k + 1 else k) := by
  have hnext := current_blockStep_held hr hu hc
  simp only [Block.pending, cycleEvents, Block.dlyReq, hr, hu, hnext]
  cases u with
  | wait => simp [MicroOp.events, show i.dlyDone = false from hc]
  | sclPoll => simp [MicroOp.events, show i.sclLevel = false from hc, List.replicate_succ']
  | _ => cases hc

/-- A completed micro-operation has made the events of the operation level (R131). -/
theorem events_perform (k : Nat) (hu : b.current = some u) (hc : u.completes i.sclLevel i.dlyDone = true)
    (ha : b.Agrees ap o) (hk : u = .sclPoll → o.polls.headD 0 = k)
    (hd : u.samplesData = true → o.data.headD false = i.sdaLevel) :
    o.events ++ b.pending k ++ u.events b i.sclLevel i.sdaLevel i.dlyDone = (u.perform ap o).events := by
  rw [Block.pending, hu]
  cases u with
  | wait => simp [MicroOp.events, MicroOp.perform, Prim.run, show i.dlyDone = true from hc]
  | sclPoll => simp only [MicroOp.events, MicroOp.perform, hk rfl, show i.sclLevel = true from hc, List.append_assoc]
  | sdaBit => simp [MicroOp.events, MicroOp.perform, Prim.run, Block.nextBit, ha.shreg]
  | sdaAck => simp [MicroOp.events, MicroOp.perform, Prim.run, ha.ackpol]
  | bitSample => simp only [MicroOp.events, MicroOp.perform, Prim.run, hd rfl, List.append_nil]
  | ackSample => simp only [MicroOp.events, MicroOp.perform, Prim.run, hd rfl, List.append_nil]
  | _ => simp [MicroOp.events, MicroOp.perform, Prim.run]

/-- In the cycle of a completed micro-operation the events of the operation level come to their end, and a wait after
it begins (R61, R131). -/
theorem cycleEvents_done (k : Nat) (hr : i.rst = false) (hu : b.current = some u)
    (hc : u.completes i.sclLevel i.dlyDone = true) (ha : b.Agrees ap o)
    (hk : u = .sclPoll → o.polls.headD 0 = k) (hd : u.samplesData = true → o.data.headD false = i.sdaLevel) :
    o.events ++ b.pending k ++ cycleEvents b i = (u.perform ap o).events ++ (blockStep b i).pending 0 := by
  have hbegin : (!b.dlyReq && (blockStep b i).dlyReq) = (blockStep b i).dlyReq := by
    by_cases hw : u = .wait
    · subst hw
      simp [dlyReq_blockStep_wait hr hu hc]
    · simp [Block.dlyReq, hu, hw]
  rw [← events_perform k hu hc ha hk hd, pending_zero]
  simp [cycleEvents, hr, hu, hbegin]

/-- The updates of R206 are those of the operation level. -/
theorem Block.Agrees.update {sda : Bool} (h : b.Agrees ap o)
    (hd : u.samplesData = true → o.data.headD false = sda) : (u.update b sda).Agrees ap (u.perform ap o) := by
  cases u with
  | sclLow => exact { h with sclDrv := rfl }
  | sclRel => exact { h with sclDrv := rfl }
  | sdaLow => exact { h with sdaDrv := rfl }
  | sdaRel => exact { h with sdaDrv := rfl }
  | sdaBit => exact { h with sdaDrv := congrArg (fun x : Byte => driveForBit (x.getLsbD 7)) h.shreg }
  | sdaAck => exact { h with sdaDrv := congrArg (fun a => driveForBit (!a)) h.ackpol }
  | wait => exact { h with }
  | sclPoll => exact { h with }
  | shift => exact { h with shreg := congrArg (shiftIn · false) h.shreg }
  | bitSample => exact { h with shreg := congrArg₂ shiftIn h.shreg (hd rfl).symm }
  | ackSample => exact { h with ack := congrArg (!·) (hd rfl).symm }
  | latchRx => exact { h with rxdata := h.shreg }

theorem Block.Agrees.advance (h : b.Agrees ap o) (u : MicroOp) : (b.advance u).Agrees ap o where
  sclDrv := (advance_sclDrv b u).trans h.sclDrv
  sdaDrv := (advance_sdaDrv b u).trans h.sdaDrv
  ack := (advance_ack b u).trans h.ack
  shreg := (advance_shreg b u).trans h.shreg
  rxdata := (advance_rxdata b u).trans h.rxdata
  ackpol := (advance_ackpol b u).trans h.ackpol

/-- A completed micro-operation leaves the block as the operation level has it, whatever the host writes (R206). -/
theorem agrees_blockStep_done (hr : i.rst = false) (hu : b.current = some u)
    (hc : u.completes i.sclLevel i.dlyDone = true) (ha : b.Agrees ap o)
    (hd : u.samplesData = true → o.data.headD false = i.sdaLevel) : (blockStep b i).Agrees ap (u.perform ap o) := by
  obtain ⟨tx, ce, hstep⟩ := blockStep_busy b i hr (busy_of_current b hu)
  rw [hstep, sequencer_done b _ _ _ hu hc]
  exact { (ha.update hd).advance u with }

theorem agrees_blockStep_held (hr : i.rst = false) (hu : b.current = some u)
    (hc : u.completes i.sclLevel i.dlyDone = false) (ha : b.Agrees ap o) : (blockStep b i).Agrees ap o := by
  obtain ⟨tx, ce, hstep⟩ := blockStep_busy b i hr (busy_of_current b hu)
  rw [hstep, sequencer_hold b _ _ _ hu hc]
  exact { ha with }

end Cycle

/-- The machine `s` with the micro-operations `us` before it and the answers `es` to come stands where the
operation-level run `o` stands, which still has the poll counts and samples of these answers and whose events come
after the history `past`; `k` polls of the present micro-operation have read low. -/
structure State.Tracks (s : State) (past : List Event) (ap : Bool) (o : OpState) (us : List MicroOp)
    (es : List EnvCycle) (k : Nat) : Prop where
  agrees : s.blk.Agrees ap o
  events : s.events = past ++ (o.events ++ s.blk.pending k)
  polls : o.polls = pollCounts k us es
  data : o.data = dataSamples us es

section Run

variable {s : State} {past : List Event} {ap : Bool} {o : OpState} {u : MicroOp} {us : List MicroOp} {e : EnvCycle}
  {es rest : List EnvCycle} {k : Nat}

/-- A cycle in which the current micro-operation is held leaves the operation level where it is. -/
theorem tracks_tick_held (h : s.Tracks past ap o (u :: us) (e :: es) k) (hn : s.envNow = e) (hr : e.rst = false)
    (hu : s.blk.current = some u) (hc : u.completes e.sclLevel e.dlyDone = false) :
    (tick s).Tracks past ap o (u :: us) es (if u = .sclPoll then k + 1 else k) := by
  subst hn
  refine ⟨agrees_blockStep_held hr hu hc h.agrees, ?_, ?_, ?_⟩
  · rw [tick_events, h.events, List.append_assoc, List.append_assoc, cycleEvents_held k hr hu hc, tick_blk]
  · simp [h.polls, pollCounts, hc]
  · simp [h.data, dataSamples, hc]

/-- A cycle in which the current micro-operation completes performs it at the operation level. -/
theorem tracks_tick_done (h : s.Tracks past ap o (u :: us) (e :: es) k) (hn : s.envNow = e) (hr : e.rst = false)
    (hu : s.blk.current = some u) (hc : u.completes e.sclLevel e.dlyDone = true) :
    (tick s).Tracks past ap (u.perform ap o) us es 0 := by
  subst hn
  have hp : o.polls = (if u = .sclPoll then [k] else []) ++ pollCounts 0 us es := by
    simp [h.polls, pollCounts, hc]
  have hd : o.data = (if u.samplesData then [s.envNow.sdaLevel] else []) ++ dataSamples us es := by
    simp [h.data, dataSamples, hc]
  have hsample : u.samplesData = true → o.data.headD false = s.envNow.sdaLevel := fun hs => by simp [hd, hs]
  refine ⟨agrees_blockStep_done hr hu hc h.agrees hsample, ?_, ?_, ?_⟩
  · rw [tick_events, h.events, tick_blk, List.append_assoc,
      cycleEvents_done k hr hu hc h.agrees (fun hs => by simp [hp, hs]) hsample]
  · rw [perform_polls, hp]
    split <;> rfl
  · rw [perform_data, hd]
    split <;> rfl

/-- Answers to exactly what remains make, cycle by cycle, the run of the remaining micro-operations at the operation
level on the poll counts and Data samples of these answers, whatever the host does. -/
theorem runWhileBusy_tracks (es : List EnvCycle) (s : State) (o : OpState) (k : Nat)
    (hb : s.blk.busy = true) (ht : s.blk.onTrack) (he : s.env = es ++ rest)
    (ha : answered s.blk.remaining es = true) (h : s.Tracks past ap o s.blk.remaining es k) :
    (runWhileBusy (es ++ rest) s).Tracks past ap (performAll ap s.blk.remaining o) [] [] 0 := by
  induction es generalizing s o k with
  | nil =>
    obtain ⟨u, us, hrem⟩ := List.exists_cons_of_ne_nil (remaining_ne_nil hb ht)
    simp [hrem, answered] at ha
  | cons e es ih =>
    have hn : s.envNow = e := envNow_cons s e (es ++ rest) he
    have htail : (tick s).env = es ++ rest := by simp [he]
    have hr : e.rst = false := rst_of_answered ha (remaining_ne_nil hb ht)
    have hblk : (tick s).blk = blockStep s.blk (inputOf s.host.access e) := by rw [tick_blk, hn]
    obtain ⟨u, us, hrem, hu, hcase⟩ := blockStep_remaining (i := inputOf s.host.access e) hb ht hr
    rw [List.cons_append, runWhileBusy_cons e _ hb]
    rw [hrem] at ha h ⊢
    rw [← hblk, inputOf_sclLevel, inputOf_dlyDone] at hcase
    rcases hcase with ⟨hc, h1, h2, h3⟩ | ⟨hc, -, h1, h2, h3⟩ | ⟨hc, rfl, h1⟩
    · have hnext := tracks_tick_held h hn hr hu hc
      rw [← h3] at hnext ⊢
      exact ih (tick s) o _ h1 h2 htail (by rw [h3]; simpa [answered, hc, hr] using ha) hnext
    · have hnext := tracks_tick_done h hn hr hu hc
      rw [performAll_cons, ← h3]
      rw [← h3] at hnext
      exact ih (tick s) _ _ h1 h2 htail (by rw [h3]; simpa [answered, hc, hr] using ha) hnext
    · have hes : es = [] := by
        cases es with
        | nil => rfl
        | cons e' es => simp [answered, hc] at ha
      subst hes
      rw [runWhileBusy_idle _ h1]
      exact tracks_tick_done h hn hr hu hc

end Run

end Sys2Proof.Machine

/-! PROOFS. Whole commands: a command answered to its end makes its run of the operation level, and every run of the
operation level has answers that make it (R6, R126, R210). -/

namespace Sys2Proof.Machine

section Commands

variable {i : Instr}

/-- An accepted command has its whole list of micro-operations before it (R204). -/
theorem remaining_acceptCommand (hi : i ≠ .nop) (b : Block) : (acceptCommand i b).remaining = unrolled i := by
  cases i with
  | nop => exact absurd rfl hi
  | begin => exact remaining_acceptBegin b
  | start => exact remaining_acceptStart b
  | stop => exact remaining_acceptStop b
  | write => exact remaining_acceptWrite b
  | read a => exact remaining_acceptRead a b

theorem busy_acceptCommand (hi : i ≠ .nop) (b : Block) : (acceptCommand i b).busy = true := by
  cases i with
  | nop => exact absurd rfl hi
  | _ => rfl

theorem onTrack_acceptCommand (hi : i ≠ .nop) (b : Block) : (acceptCommand i b).onTrack := by
  cases i with
  | nop => exact absurd rfl hi
  | _ => exact ⟨Nat.le_of_ble_eq_true rfl, .inr (Nat.le_of_ble_eq_true rfl)⟩

theorem pending_acceptCommand (hi : i ≠ .nop) (b : Block) : (acceptCommand i b).pending 0 = [] := by
  cases i with
  | nop => exact absurd rfl hi
  | _ => rfl

/-- The operation level starts from the block as acceptance leaves it, but for the accumulator (R160, R164, R204). -/
theorem agrees_acceptCommand (i : Instr) (b : Block) (polls : List Nat) (data : List Bool) :
    (acceptCommand i b).Agrees (acceptCommand i b).ackpol
      ((b.opStart polls data).withAcc (acceptCommand i b).shreg) := by
  cases i <;> exact ⟨rfl, rfl, rfl, rfl, rfl, rfl⟩

theorem withAcc_acc (o : OpState) : o.withAcc o.acc = o := rfl

/-- The micro-operations of each command perform its pseudocode; the accumulator is not a result (R210). -/
theorem performAll_unrolled (i : Instr) (b : Block) (polls : List Nat) (data : List Bool) :
    ∃ x, performAll (acceptCommand i b).ackpol (unrolled i)
        ((b.opStart polls data).withAcc (acceptCommand i b).shreg)
      = (b.runOperation i polls data).withAcc x := by
  cases i with
  | nop => exact ⟨_, rfl⟩
  | begin => exact ⟨_, performAll_condition _ _ (.inl rfl) _ b.txdata⟩
  | start => exact ⟨_, performAll_condition _ _ (.inr (.inl rfl)) _ b.txdata⟩
  | stop => exact ⟨_, performAll_condition _ _ (.inr (.inr rfl)) _ b.txdata⟩
  | write => exact ⟨_, performAll_write _ _ b.txdata⟩
  | read a => exact ⟨_, (performAll_read _ b.txdata a).trans (withAcc_acc _).symm⟩

/-- The machine after the cycle in which an idle block accepts `i` without reset (R204). -/
def State.accepted (s : State) (i : Instr) : State :=
  { s with blk := acceptCommand i s.blk, env := s.env.tail, cycle := s.cycle + 1 }

/-- A command that has just been accepted stands at the start of its operation-level run. -/
theorem tracks_accepted (hi : i ≠ .nop) (s : State) (es : List EnvCycle) :
    (s.accepted i).Tracks s.events (acceptCommand i s.blk).ackpol
      ((s.blk.opStart (pollCounts 0 (unrolled i) es) (dataSamples (unrolled i) es)).withAcc
        (acceptCommand i s.blk).shreg) (unrolled i) es 0 where
  agrees := agrees_acceptCommand i s.blk _ _
  events := by
    rw [State.accepted, pending_acceptCommand hi]
    exact (List.append_nil _).symm
  polls := rfl
  data := rfl

/-- A command on an idle block, issued without reset and answered to its end, finishes with the events, the lines, ACK
and RXDATA of its operation-level run on the poll counts and Data samples of the answers, whatever the host does
meanwhile (R210). -/
theorem exec_meets_operation (i : Instr) {s : State} {e0 : EnvCycle} {es rest : List EnvCycle}
    (hb : s.blk.busy = false) (hr : e0.rst = false) (he : s.env = e0 :: (es ++ rest))
    (ha : answered (unrolled i) es = true) :
    ∃ t, exec i s = .next t ∧ t.blk.busy = false ∧ t.env = rest ∧
      let o := s.blk.runOperation i (pollCounts 0 (unrolled i) es) (dataSamples (unrolled i) es)
      t.events = s.events ++ o.events ∧ t.blk.sclDrv = o.scl ∧ t.blk.sdaDrv = o.sda ∧
      t.blk.ack = o.ack ∧ t.blk.rxdata = o.rxdata := by
  have hr' : s.envNow.rst = false := by rw [envNow_cons s e0 _ he]; exact hr
  refine ⟨_, exec_eq_runCommand i s, ?_⟩
  by_cases hi : i = .nop
  · subst hi
    obtain rfl : es = [] := by
      cases es with
      | nil => rfl
      | cons e es => simp [unrolled, answered] at ha
    rw [acceptCommand, runCommand_nop hb hr']
    exact ⟨hb, by simp [he], by simp [Block.runOperation, opProgram, Block.opStart]⟩
  · have htail : (s.accepted i).env = es ++ rest := by simp [State.accepted, he]
    have hrun : runCommand i (acceptCommand i) s = runWhileBusy (es ++ rest) (s.accepted i) := by
      rw [← htail]
      exact runCommand_ready i _ hb hr'
    have hbusy : (s.accepted i).blk.busy = true := busy_acceptCommand hi s.blk
    have htrack : (s.accepted i).blk.onTrack := onTrack_acceptCommand hi s.blk
    have hrem : (s.accepted i).blk.remaining = unrolled i := remaining_acceptCommand hi s.blk
    obtain ⟨hidle, hrest, -⟩ := runWhileBusy_answered es rest _ hbusy htrack htail (by rwa [hrem])
    have hend := runWhileBusy_tracks es _ _ 0 hbusy htrack htail (by rwa [hrem])
      (by rw [hrem]; exact tracks_accepted hi s es)
    obtain ⟨x, hx⟩ := performAll_unrolled i s.blk (pollCounts 0 (unrolled i) es) (dataSamples (unrolled i) es)
    rw [hrem, hx] at hend
    rw [hrun]
    refine ⟨hidle, hrest, ?_, hend.agrees.sclDrv, hend.agrees.sdaDrv, hend.agrees.ack, hend.agrees.rxdata⟩
    rw [hend.events, pending_idle _ hidle]
    exact congrArg _ (List.append_nil _)

end Commands

section Answers

/-- An answer with Clock low: a poll goes on. -/
def EnvCycle.lowPoll : EnvCycle := { rst := false, sclLevel := false, sdaLevel := false, dlyDone := true }

/-- An answer that completes any micro-operation, with `v` on Data. -/
def EnvCycle.reply (v : Bool) : EnvCycle := { rst := false, sclLevel := true, sdaLevel := v, dlyDone := true }

variable (us : List MicroOp) (es : List EnvCycle) (k n : Nat) (v : Bool)

theorem answered_reply (u : MicroOp) : answered (u :: us) (.reply v :: es) = answered us es := by
  cases u <;> rfl

theorem pollCounts_reply (u : MicroOp) :
    pollCounts k (u :: us) (.reply v :: es) = (if u = .sclPoll then [k] else []) ++ pollCounts 0 us es := by
  cases u <;> rfl

theorem dataSamples_reply (u : MicroOp) :
    dataSamples (u :: us) (.reply v :: es) = (if u.samplesData then [v] else []) ++ dataSamples us es := by
  cases u <;> rfl

theorem answered_lowPolls :
    answered (.sclPoll :: us) (List.replicate n .lowPoll ++ es) = answered (.sclPoll :: us) es := by
  induction n with
  | zero => rfl
  | succ n ih => exact ih

theorem pollCounts_lowPolls :
    pollCounts k (.sclPoll :: us) (List.replicate n .lowPoll ++ es) = pollCounts (k + n) (.sclPoll :: us) es := by
  induction n generalizing k with
  | zero => rfl
  | succ n ih => rw [show k + (n + 1) = k + 1 + n by omega]; exact ih (k + 1)

theorem dataSamples_lowPolls :
    dataSamples (.sclPoll :: us) (List.replicate n .lowPoll ++ es) = dataSamples (.sclPoll :: us) es := by
  induction n with
  | zero => rfl
  | succ n ih => exact ih

/-- Values, one for each element of a list that meets `p`: the first is that of the head, if the head meets it. -/
theorem exists_head_of_countP {α : Type} {p : α → Bool} {a : α} {as : List α} {l : List Bool}
    (h : l.length = (a :: as).countP p) :
    ∃ v l', l = (if p a then [v] else []) ++ l' ∧ l'.length = as.countP p := by
  cases hp : p a with
  | false => exact ⟨false, l, rfl, by simpa [hp] using h⟩
  | true =>
    obtain ⟨v, l, rfl⟩ := List.exists_cons_of_length_eq_add_one (h.trans (List.countP_cons_of_pos hp))
    exact ⟨v, l, rfl, by simpa [hp] using h⟩

/-- Any number of low polls at each clock raise and any Data samples are those of some answers (R126: `k` low polls
take `k + 1` samples). -/
theorem exists_answers (us : List MicroOp) (polls : List Nat) (data : List Bool)
    (hp : polls.length = us.count .sclPoll) (hd : data.length = us.countP MicroOp.samplesData) :
    ∃ es, answered us es = true ∧ pollCounts 0 us es = polls ∧ dataSamples us es = data ∧
      es.length = us.length + polls.sum := by
  induction us generalizing polls data with
  | nil =>
    obtain rfl : polls = [] := List.length_eq_zero_iff.1 hp
    obtain rfl : data = [] := List.length_eq_zero_iff.1 hd
    exact ⟨[], rfl, rfl, rfl, rfl⟩
  | cons u us ih =>
    by_cases hu : u = .sclPoll
    · subst hu
      obtain ⟨n, polls, rfl⟩ := List.exists_cons_of_length_eq_add_one (hp.trans List.count_cons_self)
      obtain ⟨es, h1, h2, h3, h4⟩ := ih polls data (by simpa using hp) (by simpa [MicroOp.samplesData] using hd)
      refine ⟨List.replicate n .lowPoll ++ .reply false :: es, ?_, ?_, ?_, ?_⟩
      · rw [answered_lowPolls, answered_reply, h1]
      · simp [pollCounts_lowPolls, pollCounts_reply, h2]
      · simp [dataSamples_lowPolls, dataSamples_reply, h3, MicroOp.samplesData]
      · simp [h4]; omega
    · obtain ⟨v, data, rfl, hd'⟩ := exists_head_of_countP hd
      obtain ⟨es, h1, h2, h3, h4⟩ := ih polls data (hp.trans (List.count_cons_of_ne hu)) hd'
      refine ⟨.reply v :: es, ?_, ?_, ?_, ?_⟩
      · rw [answered_reply, h1]
      · simp [pollCounts_reply, h2, hu]
      · rw [dataSamples_reply, h3]
      · simp [h4]; omega

theorem countP_writeBitPrims (p : Prim → Bool) (hp : p (.sdaSet true) = p (.sdaSet false)) (v : Bool) :
    (writeBitPrims v).countP p = [.sclLow, .sdaSet false, .wait, .sclRaise, .wait].countP p := by
  cases v with
  | false => rfl
  | true => simp only [writeBitPrims, List.countP_cons, hp]

/-- A count that takes the two values of `sda_set` alike does not depend on WRITE's operand. -/
theorem countP_opProgram (p : Prim → Bool) (hp : p (.sdaSet true) = p (.sdaSet false)) (v : Byte) (i : Instr) :
    (opProgram v i).countP p = (opProgram 0x00#8 i).countP p := by
  cases i with
  | write =>
    simp only [opProgram, List.flatMap_cons, List.flatMap_nil, List.countP_append, countP_writeBitPrims p hp]
  | _ => rfl

/-- The pseudocode raises Clock as often as the micro-operations poll it (R126). -/
theorem count_sclRaise_opProgram (v : Byte) (i : Instr) :
    (opProgram v i).count .sclRaise = (unrolled i).count .sclPoll := by
  rw [List.count, countP_opProgram _ rfl]
  cases i with
  | read a => cases a <;> decide
  | _ => decide

/-- The pseudocode samples Data as often as the micro-operations do (R124). -/
theorem countP_samplesData_opProgram (v : Byte) (i : Instr) :
    (opProgram v i).countP Prim.samplesData = (unrolled i).countP MicroOp.samplesData := by
  rw [countP_opProgram _ rfl]
  cases i with
  | read a => cases a <;> decide
  | _ => decide

end Answers

/-- Settles O33: answers with these poll counts and samples exist, and a command answered to its end makes its run of
the operation level. -/
theorem everyOperationRunIsRealised : Obligations.EveryOperationRunIsRealised := by
  unfold Obligations.EveryOperationRunIsRealised
  intro i s polls data hb hp hd
  obtain ⟨es, ha, rfl, rfl, hlen⟩ := exists_answers (unrolled i) polls data
    (hp.trans (count_sclRaise_opProgram _ i)) (hd.trans (countP_samplesData_opProgram _ i))
  exact ⟨es, ha, rfl, rfl, hlen, fun e0 rest hr => exec_meets_operation i hb hr rfl ha⟩

end Sys2Proof.Machine

/-! PROOFS. The invariant of the block (R37, R38, R130), said once: what it asks of an idle and of a busy block, and
that acceptance, every micro-operation and every cycle keep it. -/

namespace Sys2Proof.Machine

section Position

variable {b c : Block}

/-- An idle block's position is legal exactly when OP, USTEP and BITCNT are 0 (R37 (a)). -/
theorem positionOk_idle (hb : b.busy = false) :
    b.positionOk = true ↔ b.op = 0#3 ∧ b.ustep = 0#4 ∧ b.bitcnt = 0#4 := by
  simp only [Block.positionOk, hb, Bool.false_eq_true, if_false, Bool.and_eq_true, beq_iff_eq, Bool.or_eq_true]
  constructor
  · rintro ⟨⟨⟨⟨⟨ho, hu⟩, hc⟩, -⟩, -⟩, -⟩
    exact ⟨ho, hu, hc⟩
  · rintro ⟨ho, hu, hc⟩
    simp [ho, hu, hc]

/-- A busy block's position is legal exactly when it is on track, with at most 8 bits done and none outside WRITE and
READ (R37 (b), (c)). -/
theorem positionOk_busy (hb : b.busy = true) :
    b.positionOk = true ↔
      b.onTrack ∧ b.bitcnt.toNat ≤ 8 ∧ (b.bitcnt.toNat = 0 ∨ b.op = 4#3 ∨ b.op = 5#3) := by
  constructor
  · intro hp
    refine ⟨onTrack_of_positionOk hb hp, ?_⟩
    simp only [Block.positionOk, hb, if_true, Bool.and_eq_true, Bool.or_eq_true, decide_eq_true_eq, beq_iff_eq] at hp
    obtain ⟨⟨⟨-, h8⟩, -⟩, hop⟩ := hp
    exact ⟨h8, hop⟩
  · rintro ⟨⟨hlen, hbit⟩, h8, hop⟩
    have hrange : 1 ≤ b.op.toNat ∧ b.op.toNat ≤ 5 := by
      rcases op_cases hlen with h | h | h | h | h <;> simp [h]
    have hloop : b.bitcnt.toNat = 8 → (b.op = 4#3 ∨ b.op = 5#3) ∧ 7 ≤ b.ustep.toNat := fun h =>
      ⟨hop.resolve_left (by omega), hbit.resolve_right (by omega)⟩
    simp only [Block.positionOk, hb, if_true, Bool.and_eq_true, Bool.or_eq_true, decide_eq_true_eq, beq_iff_eq,
      bne_iff_ne]
    exact ⟨⟨⟨⟨hrange, hlen⟩, h8⟩, Decidable.not_or_of_imp hloop⟩, hop⟩

/-- The block's part of the invariant: a legal position, and the lines as it says. -/
structure Block.Legal (b : Block) : Prop where
  position : b.positionOk = true
  lines : b.linesOk = true

/-- The invariant looks at the position, the two drive states and ACKPOL alone. -/
theorem Block.Legal.congr (h : b.Legal) (hb : c.busy = b.busy) (ho : c.op = b.op) (hu : c.ustep = b.ustep)
    (hn : c.bitcnt = b.bitcnt) (hp : c.ackpol = b.ackpol) (hc : c.sclDrv = b.sclDrv) (hd : c.sdaDrv = b.sdaDrv) :
    c.Legal where
  position := by simpa only [Block.positionOk, hb, ho, hu, hn] using h.position
  lines := by simpa only [Block.linesOk, hb, ho, hu, hn, hp, hc, hd] using h.lines

theorem legal_reset : Block.reset.Legal := ⟨rfl, rfl⟩

/-- An accepted command stands before its first micro-operation with no bit done (R204), where the lines are as
between commands (R130). -/
theorem Block.Legal.accept (h : b.Legal) (hb : b.busy = false) (i : Instr) : (acceptCommand i b).Legal := by
  have hquiet : (b.sclDrv.bit || !b.sdaDrv.bit) = true := by simpa [Block.linesOk, hb] using h.lines
  cases i with
  | nop => exact h
  | _ => exact ⟨rfl, hquiet⟩

end Position

section Advance

variable {b : Block} {u : MicroOp} (sda : Bool)

/-- Everything an advance can do: it finishes the command, or it moves USTEP (R203, R205, R207). -/
theorem advance_cases (b : Block) (u : MicroOp) :
    b.advance u = b.finish ∨ ∃ k, b.advance u = { b with ustep := k } := by
  cases u with
  | shift => exact .inr ⟨_, rfl⟩
  | bitSample => exact .inr ⟨_, rfl⟩
  | _ =>
    simp only [Block.advance]
    split
    · exact .inl rfl
    · exact .inr ⟨_, rfl⟩

/-- Only SHIFT and BIT_SAMPLE count a bit (R206). -/
theorem update_bitcnt (hu : ¬(u = .shift ∨ u = .bitSample)) : (u.update b sda).bitcnt = b.bitcnt := by
  cases u with
  | shift => exact absurd (.inl rfl) hu
  | bitSample => exact absurd (.inr rfl) hu
  | _ => rfl

/-- SHIFT and BIT_SAMPLE add one to BITCNT (R206). -/
theorem update_bitcnt_counted (hu : u = .shift ∨ u = .bitSample) :
    (u.update b sda).bitcnt = b.bitcnt + 1#4 := by
  rcases hu with rfl | rfl <;> rfl

/-- SHIFT and BIT_SAMPLE stand at index 6 of WRITE and READ (R202). -/
theorem position_of_counted (hc : b.current = some u) (hu : u = .shift ∨ u = .bitSample) :
    (b.op = 4#3 ∨ b.op = 5#3) ∧ b.ustep = 6#4 := by
  have key : ∀ (op : BitVec 3) (k : BitVec 4),
      (microProgram op)[k.toNat]? = some .shift ∨ (microProgram op)[k.toNat]? = some .bitSample →
        (op = 4#3 ∨ op = 5#3) ∧ k = 6#4 := by decide
  obtain ⟨-, hpos⟩ := current_eq_some.1 hc
  rcases hu with rfl | rfl
  · exact key b.op b.ustep (.inl hpos)
  · exact key b.op b.ustep (.inr hpos)

/-- The bits done after a micro-operation: at most 8, and none outside WRITE and READ (R37 (c)). -/
theorem bitcnt_update (ht : b.onTrack) (h8 : b.bitcnt.toNat ≤ 8)
    (hop : b.bitcnt.toNat = 0 ∨ b.op = 4#3 ∨ b.op = 5#3) (hc : b.current = some u) :
    (u.update b sda).bitcnt.toNat ≤ 8 ∧ ((u.update b sda).bitcnt.toNat = 0 ∨ b.op = 4#3 ∨ b.op = 5#3) := by
  by_cases hu : u = .shift ∨ u = .bitSample
  · obtain ⟨hloop, hk⟩ := position_of_counted hc hu
    have hlt : b.bitcnt.toNat < 8 := ht.2.resolve_left (by simp [hk])
    have hnext : (b.bitcnt + 1#4).toNat = b.bitcnt.toNat + 1 := by
      rw [BitVec.toNat_add, BitVec.toNat_ofNat]; omega
    rw [update_bitcnt_counted sda hu, hnext]
    exact ⟨hlt, .inr hloop⟩
  · rw [update_bitcnt sda hu]
    exact ⟨h8, hop⟩

/-- A completed micro-operation leads to a legal position (R37). -/
theorem positionOk_advance (hp : b.positionOk = true) (hc : b.current = some u) :
    ((u.update b sda).advance u).positionOk = true := by
  have hb : b.busy = true := busy_of_current b hc
  obtain ⟨ht, h8, hop⟩ := (positionOk_busy hb).1 hp
  rcases advance_cases (u.update b sda) u with hfin | ⟨k, hk⟩
  · rw [hfin, positionOk_idle rfl]
    exact ⟨rfl, rfl, rfl⟩
  · have hbusy : ((u.update b sda).advance u).busy = true := by simp [hk, hb]
    have htrack : ((u.update b sda).advance u).onTrack := by
      obtain ⟨w, hw, hs⟩ := remaining_step hb ht sda
      obtain rfl : u = w := Option.some.inj (hc.symm.trans hw)
      rcases hs with ⟨-, h, -⟩ | ⟨h, -⟩
      · exact h
      · exact absurd (hbusy.symm.trans h) Bool.noConfusion
    rw [positionOk_busy hbusy]
    refine ⟨htrack, ?_⟩
    simpa [hk] using bitcnt_update sda ht h8 hop hc

end Advance

section Lines

@[simp] theorem bit_released : LineDrive.released.bit = false := rfl
@[simp] theorem bit_drivenLow : LineDrive.drivenLow.bit = true := rfl
@[simp] theorem bit_driveForBit (v : Bool) : (driveForBit v).bit = !v := by cases v <;> rfl

/-- The micro-operation current in `b`, completed, takes the lines from what `linesOk` says of its position to what
it says of the next. -/
def Block.keepsLines (b : Block) (sda : Bool) : Prop :=
  ∀ u, b.current = some u → b.linesOk = true → ((u.update b sda).advance u).linesOk = true

/-! The columns of R202 against the table of `linesOk`, position by position: what is asked of the lines before a
micro-operation and the line it drives give what is asked of them after it. -/

variable (scl sdaD : LineDrive) (sh tx rx : Byte) (bc : BitVec 4) (ack ap ce sda : Bool)

/-- BEGIN, START and STOP. -/
theorem keepsLines_condition {op : BitVec 3} (ho : op = 1#3 ∨ op = 2#3 ∨ op = 3#3) {k : Nat} (hk : k < 9) :
    Block.keepsLines ⟨scl, sdaD, sh, bc, tx, rx, ack, ap, true, op, BitVec.ofNat 4 k, ce⟩ sda := by
  intro u hu
  rcases ho with rfl | rfl | rfl <;> interval_cases k <;> cases hu <;>
    simp +contextual [Block.linesOk, MicroOp.update, Block.advance, Block.atLast, microProgram, beginProgram,
      startProgram, stopProgram]

/-- The branch at the end of a bit loop: Clock stays released from the last bit to the next (R207). -/
theorem keepsLines_loopEnd {op : BitVec 3} (ho : op = 4#3 ∨ op = 5#3) (h : bc.toNat < 8) :
    Block.keepsLines ⟨scl, sdaD, sh, bc, tx, rx, ack, ap, true, op, 6#4, ce⟩ sda := by
  have hnext : bc + 1#4 ≠ 0#4 := by bv_omega
  intro u hu
  by_cases hlast : bc + 1#4 = 8#4 <;> rcases ho with rfl | rfl <;> cases hu <;>
    simp +contextual [Block.linesOk, MicroOp.update, Block.advance, hlast, hnext]

/-- WRITE but for its branch. -/
theorem keepsLines_write {k : Nat} (hk : k < 15) (h6 : k ≠ 6) :
    Block.keepsLines ⟨scl, sdaD, sh, bc, tx, rx, ack, ap, true, 4#3, BitVec.ofNat 4 k, ce⟩ sda := by
  intro u hu
  interval_cases k <;> cases hu <;>
    simp +contextual [Block.linesOk, MicroOp.update, Block.advance, Block.atLast, microProgram, writeProgram] at h6 ⊢

/-- READ but for its branch. -/
theorem keepsLines_read {k : Nat} (hk : k < 16) (h6 : k ≠ 6) :
    Block.keepsLines ⟨scl, sdaD, sh, bc, tx, rx, ack, ap, true, 5#3, BitVec.ofNat 4 k, ce⟩ sda := by
  intro u hu
  interval_cases k <;> cases hu <;>
    simp +contextual [Block.linesOk, MicroOp.update, Block.advance, Block.atLast, microProgram, readProgram] at h6 ⊢

end Lines

section Cycle

variable {b : Block} {i : Input}

/-- A completed micro-operation takes the lines to what the next position asks of them (R38, R202). -/
theorem keepsLines_of_onTrack (hb : b.busy = true) (ht : b.onTrack) (sda : Bool) : b.keepsLines sda := by
  obtain ⟨scl, sdaD, sh, bc, tx, rx, ack, ap, busy, op, us, ce⟩ := b
  obtain ⟨k, hk, rfl⟩ := bv4_cases us
  obtain rfl : busy = true := hb
  obtain ⟨hlen, hbit⟩ := ht
  simp only [BitVec.toNat_ofNat, Nat.mod_eq_of_lt hk] at hlen hbit
  by_cases h6 : k = 6 ∧ (op = 4#3 ∨ op = 5#3)
  · obtain ⟨rfl, ho⟩ := h6
    exact keepsLines_loopEnd _ _ _ _ _ _ _ _ _ _ ho (hbit.resolve_left (by omega))
  rcases op_cases hlen with rfl | rfl | rfl | rfl | rfl
  · exact keepsLines_condition _ _ _ _ _ _ _ _ _ _ (.inl rfl) (hlen.trans (by decide))
  · exact keepsLines_condition _ _ _ _ _ _ _ _ _ _ (.inr (.inl rfl)) hlen
  · exact keepsLines_condition _ _ _ _ _ _ _ _ _ _ (.inr (.inr rfl)) hlen
  · exact keepsLines_write _ _ _ _ _ _ _ _ _ _ hlen fun h => h6 ⟨h, .inl rfl⟩
  · exact keepsLines_read _ _ _ _ _ _ _ _ _ _ hlen fun h => h6 ⟨h, .inr rfl⟩

/-- The sequencer keeps the block's invariant. -/
theorem Block.Legal.sequencer (h : b.Legal) (scl sda dly : Bool) : (sequencer b scl sda dly).Legal := by
  rcases sequencer_cases b scl sda dly with ⟨-, hs⟩ | ⟨u, -, -, hs⟩ | ⟨u, hu, -, hs⟩ <;> rw [hs]
  · exact h
  · exact h
  · have hb : b.busy = true := busy_of_current b hu
    have ht : b.onTrack := onTrack_of_positionOk hb h.position
    exact ⟨positionOk_advance sda h.position hu, keepsLines_of_onTrack hb ht sda u hu h.lines⟩

/-- Everything a cycle without reset can do to an idle block: a write changes TXDATA or CMDERR at most, or a command
is accepted (R204, R209). -/
theorem blockStep_idle (hr : i.rst = false) (hb : b.busy = false) :
    (∃ tx ce, blockStep b i = { b with txdata := tx, cmderr := ce }) ∨
    (∃ c, i.regWe = true ∧ i.regAddr = .cmd ∧ decodeCommand i.regWdata = some c ∧
      blockStep b i = acceptCommand c b) := by
  cases hw : i.regWe with
  | false =>
    rw [blockStep_noWrite b i hr hw, sequencer_idle _ _ _ _ hb]
    exact .inl ⟨_, _, rfl⟩
  | true =>
    rw [blockStep_write b i hr hw, sequencer_idle _ _ _ _ hb]
    cases i.regAddr with
    | cmd =>
      cases hv : decodeCommand i.regWdata with
      | none => exact .inl ⟨b.txdata, true, commandIssue_illegal b b _ hv⟩
      | some c => exact .inr ⟨c, rfl, rfl, rfl, commandIssue_legal b b _ hb hv⟩
    | status =>
      by_cases hv : i.regWdata.getLsbD 6
      · exact .inl ⟨b.txdata, false, if_pos hv⟩
      · exact .inl ⟨b.txdata, b.cmderr, if_neg hv⟩
    | txdata => exact .inl ⟨i.regWdata, b.cmderr, rfl⟩
    | rxdata => exact .inl ⟨b.txdata, b.cmderr, rfl⟩

/-- Every cycle keeps the block's invariant, whatever its inputs. -/
theorem Block.Legal.blockStep (h : b.Legal) (i : Input) : (blockStep b i).Legal := by
  cases hr : i.rst with
  | true =>
    rw [blockStep_rst b i hr]
    exact legal_reset
  | false =>
    cases hb : b.busy with
    | true =>
      obtain ⟨tx, ce, hstep⟩ := blockStep_busy b i hr hb
      rw [hstep]
      exact (h.sequencer _ _ _).congr rfl rfl rfl rfl rfl rfl rfl
    | false =>
      rcases blockStep_idle hr hb with ⟨tx, ce, hstep⟩ | ⟨c, -, -, -, hstep⟩ <;> rw [hstep]
      · exact h.congr rfl rfl rfl rfl rfl rfl rfl
      · exact h.accept hb c

end Cycle

end Sys2Proof.Machine

/-! PROOFS. The machine's invariant: it holds at reset, cycles, commands and steps keep it, and what it says of the
position (R37, log entry 19). -/

namespace Sys2Proof.Machine

/-- The encoding of a command is a byte of the map of R92. -/
theorem decodeCommand_encode (i : Instr) : decodeCommand (encode i) = some i := by
  cases i with
  | read a => cases a <;> decide
  | _ => decide

section Step

variable {s t : State} {P : State → Prop}

/-- The cycle that issues a command is a cycle of R209 with the write of its byte to CMD (R98). -/
theorem issueCycle_eq_cycleWith (i : Instr) (s : State) :
    issueCycle i (acceptCommand i) s = s.cycleWith (issueAccess i) s.host := by
  have hblk : issueBlock (acceptCommand i) s.blk s.envNow = blockStep s.blk (inputOf (issueAccess i) s.envNow) := by
    simp [issueBlock, blockStep, issueAccess, registerWrite, commandIssue, decodeCommand_encode]
  simp only [issueCycle, hblk, State.cycleWith]

/-- What the issue of a command brings about, and every cycle of a busy block keeps, holds after the command. -/
theorem runCommand_keeps {i : Instr} {f : Block → Block} (hissue : P (issueCycle i f s))
    (htick : ∀ s, s.blk.busy = true → P s → P (tick s)) : P (runCommand i f s) := by
  simp only [runCommand]
  split
  · exact hissue
  · exact runWhileBusy_keeps htick _ _ hissue

/-- Everything a step can do: it is one cycle, or the run of the command the host issues, with that statement taken
off the host's program. -/
theorem step_cases (h : step s = .next t) :
    t = tick s ∨
    ∃ v rest i, s.host.prog = .wr .cmd v :: rest ∧ decodeCommand v = some i ∧
      t = runCommand i (acceptCommand i) { s with host := { s.host with prog := rest } } := by
  unfold step at h
  split at h
  · rename_i i u hi
    rw [exec_eq_runCommand] at h
    unfold State.issued at hi
    split at hi
    · rename_i v rest hprog
      split at hi
      · rename_i j hv
        cases hi
        exact .inr ⟨v, rest, i, hprog, hv, (Host.Outcome.next.inj h).symm⟩
      · cases hi
    · cases hi
  · exact .inl (Host.Outcome.next.inj h).symm

/-- The invariant of the machine is that of the block and the canonical form of host memory. -/
theorem wf_iff : s.wf = true ↔ s.blk.Legal ∧ HostMemory.wf s.host.scan.cells = true := by
  simp only [State.wf, Bool.and_eq_true]
  exact ⟨fun ⟨⟨hp, hl⟩, hm⟩ => ⟨⟨hp, hl⟩, hm⟩, fun ⟨⟨hp, hl⟩, hm⟩ => ⟨⟨hp, hl⟩, hm⟩⟩

/-- A cycle keeps the invariant when the host keeps its memory canonical. -/
theorem wf_cycleWith (h : s.wf = true) (a : Access) {g : HostAgent} (hg : HostMemory.wf g.scan.cells = true) :
    (s.cycleWith a g).wf = true :=
  wf_iff.2 ⟨(wf_iff.1 h).1.blockStep _, hg⟩

theorem wf_tick (h : s.wf = true) : (tick s).wf = true :=
  wf_cycleWith h _ (tick_cells_wf (wf_iff.1 h).2)

theorem wf_runCommand (h : s.wf = true) (i : Instr) : (runCommand i (acceptCommand i) s).wf = true := by
  refine runCommand_keeps (P := fun s => s.wf = true) ?_ fun _ _ => wf_tick
  rw [issueCycle_eq_cycleWith]
  exact wf_cycleWith h _ (wf_iff.1 h).2

end Step

/-- Settles O37: a step is a cycle or the run of a command, and both are made of cycles that keep the invariant of the
block and the canonical form of host memory. -/
theorem stepKeepsInvariant : Obligations.StepKeepsInvariant := by
  unfold Obligations.StepKeepsInvariant
  intro s t hs hstep
  rcases step_cases hstep with rfl | ⟨v, rest, i, -, -, rfl⟩
  · exact wf_tick hs
  · refine wf_runCommand ?_ i
    exact hs

/-- Settles O36: the block's part by its reset values, the memory's because it is empty. -/
theorem resetMeetsInvariant : Obligations.ResetMeetsInvariant := by
  unfold Obligations.ResetMeetsInvariant
  exact wf_iff.2 ⟨legal_reset, rfl⟩

/-- A cycle without reset leaves the lines of an idle block as they are (R37 (d)). -/
theorem lines_blockStep_idle {b : Block} {i : Input} (hr : i.rst = false) (hb : b.busy = false) :
    (blockStep b i).sclDrv = b.sclDrv ∧ (blockStep b i).sdaDrv = b.sdaDrv := by
  rcases blockStep_idle hr hb with ⟨tx, ce, hstep⟩ | ⟨c, -, -, -, hstep⟩ <;> rw [hstep]
  · exact ⟨rfl, rfl⟩
  · cases c <;> exact ⟨rfl, rfl⟩

/-- The last index of each micro-program bounds USTEP (R37 (b), R202). -/
theorem ustep_le_of_onTrack {b : Block} (ht : b.onTrack) :
    (b.op = 1#3 ∧ b.ustep.toNat ≤ 2) ∨ (b.op = 2#3 ∧ b.ustep.toNat ≤ 8) ∨ (b.op = 3#3 ∧ b.ustep.toNat ≤ 8) ∨
      (b.op = 4#3 ∧ b.ustep.toNat ≤ 14) ∨ (b.op = 5#3 ∧ b.ustep.toNat ≤ 15) := by
  obtain ⟨hlen, -⟩ := ht
  rcases op_cases hlen with ho | ho | ho | ho | ho <;> rw [ho] at hlen
  · exact .inl ⟨ho, Nat.le_of_lt_succ hlen⟩
  · exact .inr (.inl ⟨ho, Nat.le_of_lt_succ hlen⟩)
  · exact .inr (.inr (.inl ⟨ho, Nat.le_of_lt_succ hlen⟩))
  · exact .inr (.inr (.inr (.inl ⟨ho, Nat.le_of_lt_succ hlen⟩)))
  · exact .inr (.inr (.inr (.inr ⟨ho, Nat.le_of_lt_succ hlen⟩)))

/-- The bits done, spelled out: at most 8, 8 only after a bit loop, some only in WRITE and READ (R37 (c)). -/
theorem bitcnt_of_positionOk {b : Block} (hp : b.positionOk = true) :
    b.bitcnt.toNat ≤ 8 ∧ (b.bitcnt = 8#4 → (b.op = 4#3 ∨ b.op = 5#3) ∧ 7 ≤ b.ustep.toNat) ∧
      (0 < b.bitcnt.toNat → b.op = 4#3 ∨ b.op = 5#3) := by
  cases hb : b.busy with
  | false =>
    obtain ⟨-, -, hn⟩ := (positionOk_idle hb).1 hp
    simp [hn]
  | true =>
    obtain ⟨⟨-, hbit⟩, h8, hop⟩ := (positionOk_busy hb).1 hp
    have hloop : 0 < b.bitcnt.toNat → b.op = 4#3 ∨ b.op = 5#3 := fun h => hop.resolve_left h.ne'
    exact ⟨h8, fun h => ⟨hloop (by simp [h]), hbit.resolve_right (by simp [h])⟩, hloop⟩

/-- Settles O38: the position from what the invariant asks of an idle and of a busy block, the lines because a cycle of
an idle block without reset leaves them. -/
theorem invariantSaysLegalPosition : Obligations.InvariantSaysLegalPosition := by
  unfold Obligations.InvariantSaysLegalPosition
  intro b hp
  obtain ⟨h8, hloop, hop⟩ := bitcnt_of_positionOk hp
  refine ⟨fun hb => (positionOk_idle hb).1 hp, fun hb => ustep_le_of_onTrack (onTrack_of_positionOk hb hp), h8, hloop,
    hop, ?_⟩
  intro i hchange
  by_contra hquiet
  rw [not_or, Bool.not_eq_true, Bool.not_eq_true] at hquiet
  obtain ⟨hb, hr⟩ := hquiet
  obtain ⟨hscl, hsda⟩ := lines_blockStep_idle hr hb
  exact hchange.elim (· hscl) (· hsda)

end Sys2Proof.Machine

/-! PROOFS. Who writes the results and the flags (R26 to R29, R33): the sequencer's part and the port's part of the
next value of each. -/

namespace Sys2Proof.Machine

section Sequencer

variable (b : Block) (scl sda dly : Bool)

/-- ACK_SAMPLE stands at index 13 of WRITE alone (R202). -/
theorem current_ackSample_iff : b.current = some .ackSample ↔ b.busy = true ∧ b.op = 4#3 ∧ b.ustep = 13#4 := by
  have key : ∀ (op : BitVec 3) (k : BitVec 4),
      (microProgram op)[k.toNat]? = some .ackSample ↔ op = 4#3 ∧ k = 13#4 := by decide
  rw [current_eq_some, key]

/-- LATCH_RX stands at index 15 of READ alone (R202). -/
theorem current_latchRx_iff : b.current = some .latchRx ↔ b.busy = true ∧ b.op = 5#3 ∧ b.ustep = 15#4 := by
  have key : ∀ (op : BitVec 3) (k : BitVec 4),
      (microProgram op)[k.toNat]? = some .latchRx ↔ op = 5#3 ∧ k = 15#4 := by decide
  rw [current_eq_some, key]

@[simp] theorem update_ack (u : MicroOp) : (u.update b sda).ack = if u = .ackSample then !sda else b.ack := by
  cases u <;> rfl

@[simp] theorem update_rxdata (u : MicroOp) :
    (u.update b sda).rxdata = if u = .latchRx then b.shreg else b.rxdata := by
  cases u <;> rfl

/-- The sequencer loads ACK at ACK_SAMPLE alone (R28). -/
theorem sequencer_ack :
    (sequencer b scl sda dly).ack = if b.current = some .ackSample then !sda else b.ack := by
  rcases sequencer_cases b scl sda dly with ⟨hu, hs⟩ | ⟨u, hu, hc, hs⟩ | ⟨u, hu, -, hs⟩
  · simp [hs, hu]
  · have hne : u ≠ .ackSample := by rintro rfl; cases hc
    simp [hs, hu, hne]
  · simp [hs, hu]

/-- The sequencer loads RXDATA at LATCH_RX alone (R27). -/
theorem sequencer_rxdata :
    (sequencer b scl sda dly).rxdata = if b.current = some .latchRx then b.shreg else b.rxdata := by
  rcases sequencer_cases b scl sda dly with ⟨hu, hs⟩ | ⟨u, hu, hc, hs⟩ | ⟨u, hu, -, hs⟩
  · simp [hs, hu]
  · have hne : u ≠ .latchRx := by rintro rfl; cases hc
    simp [hs, hu, hne]
  · simp [hs, hu]

end Sequencer

section Port

variable (s n : Block) (r : Reg) (v : Byte)

@[simp] theorem acceptCommand_ack (c : Instr) : (acceptCommand c n).ack = n.ack := by cases c <;> rfl
@[simp] theorem acceptCommand_rxdata (c : Instr) : (acceptCommand c n).rxdata = n.rxdata := by cases c <;> rfl
@[simp] theorem acceptCommand_txdata (c : Instr) : (acceptCommand c n).txdata = n.txdata := by cases c <;> rfl
@[simp] theorem acceptCommand_cmderr (c : Instr) : (acceptCommand c n).cmderr = n.cmderr := by cases c <;> rfl

/-- A command byte is the encoding of the command it decodes to (R92). -/
theorem encode_of_decodeCommand {c : Instr} (h : decodeCommand v = some c) : encode c = v := by
  have key : ∀ v : Byte, (decodeCommand v).all (fun c => encode c = v) = true := by decide
  simpa [h] using key v

/-- Acceptance loads ACKPOL from bit 3 of the two READ bytes alone (R29, R204). -/
theorem acceptCommand_ackpol {c : Instr} (h : decodeCommand v = some c) :
    (acceptCommand c n).ackpol = if v = 0x05#8 ∨ v = 0x0D#8 then v.getLsbD 3 else n.ackpol := by
  obtain rfl := encode_of_decodeCommand v h
  cases c with
  | read a => cases a <;> rfl
  | _ => rfl

/-- Everything a write to CMD can do: it is rejected, or accepted (R204). -/
theorem commandIssue_cases :
    ((s.busy = true ∨ decodeCommand v = none) ∧ commandIssue s n v = n.rejectCommand) ∨
    (s.busy = false ∧ ∃ c, decodeCommand v = some c ∧ commandIssue s n v = acceptCommand c n) := by
  cases hb : s.busy with
  | true => exact .inl ⟨.inl rfl, commandIssue_busy s n v hb⟩
  | false =>
    cases hv : decodeCommand v with
    | none => exact .inl ⟨.inr rfl, commandIssue_illegal s n v hv⟩
    | some c => exact .inr ⟨rfl, c, rfl, commandIssue_legal s n v hb hv⟩

@[simp] theorem registerWrite_ack : (registerWrite s n r v).ack = n.ack := by
  cases r with
  | cmd => rcases commandIssue_cases s n v with ⟨-, h⟩ | ⟨-, c, -, h⟩ <;> simp [registerWrite, h]
  | _ => simp [registerWrite]

@[simp] theorem registerWrite_rxdata : (registerWrite s n r v).rxdata = n.rxdata := by
  cases r with
  | cmd => rcases commandIssue_cases s n v with ⟨-, h⟩ | ⟨-, c, -, h⟩ <;> simp [registerWrite, h]
  | _ => simp [registerWrite]

/-- The port loads TXDATA in a write to it alone (R26, R67). -/
@[simp] theorem registerWrite_txdata :
    (registerWrite s n r v).txdata = if r = .txdata then v else n.txdata := by
  cases r with
  | cmd => rcases commandIssue_cases s n v with ⟨-, h⟩ | ⟨-, c, -, h⟩ <;> simp [registerWrite, h]
  | _ => simp [registerWrite]

/-- The port sets CMDERR in a rejected command write and clears it in a write to STATUS with bit 6 (R33, R67). -/
theorem registerWrite_cmderr :
    (registerWrite s n r v).cmderr =
      if r = .cmd ∧ (s.busy = true ∨ decodeCommand v = none) then true
      else if r = .status ∧ v.getLsbD 6 = true then false
      else n.cmderr := by
  cases r with
  | cmd => rcases commandIssue_cases s n v with ⟨hrej, h⟩ | ⟨hb, c, hv, h⟩ <;> simp [registerWrite, *]
  | _ => simp [registerWrite]

/-- The port loads ACKPOL in an accepted READ byte alone (R29, R204). -/
theorem registerWrite_ackpol :
    (registerWrite s n r v).ackpol =
      if r = .cmd ∧ s.busy = false ∧ (v = 0x05#8 ∨ v = 0x0D#8) then v.getLsbD 3 else n.ackpol := by
  have hread : v = 0x05#8 ∨ v = 0x0D#8 → decodeCommand v ≠ none := by rintro (rfl | rfl) <;> decide
  cases r with
  | cmd =>
    rcases commandIssue_cases s n v with ⟨hrej, h⟩ | ⟨hb, c, hv, h⟩
    · have hno : ¬(s.busy = false ∧ (v = 0x05#8 ∨ v = 0x0D#8)) := by
        rintro ⟨hb, hv⟩
        exact hrej.elim (fun h => by simp [hb] at h) (hread hv)
      simp [registerWrite, h, hno]
    · simp [registerWrite, h, hb, acceptCommand_ackpol n v hv]
  | _ => simp [registerWrite]

end Port

/-- Settles O13: ACK and RXDATA are the sequencer's alone, TXDATA, CMDERR and ACKPOL the port's alone. -/
theorem resultAndFlagUpdates : Obligations.ResultAndFlagUpdates := by
  unfold Obligations.ResultAndFlagUpdates
  intro b i hr
  simp only [← current_ackSample_iff, ← current_latchRx_iff]
  cases hw : i.regWe with
  | false => simp [blockStep_noWrite b i hr hw, sequencer_ack, sequencer_rxdata]
  | true =>
    simp [blockStep_write b i hr hw, sequencer_ack, sequencer_rxdata, registerWrite_cmderr, registerWrite_ackpol]

end Sys2Proof.Machine

/-! PROOFS. A command that has finished was answered (R127, R141), so its lines at the end are those of its run of the
operation level (R38, R210). -/

namespace Sys2Proof.Machine

/-- A run that comes to its end, without reset, has used answers to exactly what remained, whatever the host does: no
timeout, no early end (R127, R141, R261). -/
theorem answered_of_runWhileBusy (es : List EnvCycle) (s : State) (hb : s.blk.busy = true) (ht : s.blk.onTrack)
    (he : s.env = es) (hr : s.noReset = true) (hend : (runWhileBusy es s).blk.busy = false) :
    ∃ used, es = used ++ (runWhileBusy es s).env ∧ answered s.blk.remaining used = true := by
  induction es generalizing s with
  | nil => exact absurd (hb.symm.trans hend) Bool.noConfusion
  | cons e es ih =>
    have hn : s.envNow = e := envNow_cons s e es he
    have hrst : e.rst = false ∧ (tick s).noReset = true := by
      simpa [State.noReset, he] using hr
    obtain ⟨hre, hrs⟩ := hrst
    have hblk : (tick s).blk = blockStep s.blk (inputOf s.host.access e) := by rw [tick_blk, hn]
    obtain ⟨u, us, hrem, -, hcase⟩ := blockStep_remaining (i := inputOf s.host.access e) hb ht hre
    rw [runWhileBusy_cons e es hb] at hend ⊢
    rw [← hblk, inputOf_sclLevel, inputOf_dlyDone] at hcase
    rcases hcase with ⟨hc, h1, h2, h3⟩ | ⟨hc, -, h1, h2, h3⟩ | ⟨hc, rfl, h1⟩
    · obtain ⟨used, hused, ha⟩ := ih (tick s) h1 h2 (by simp [he]) hrs hend
      rw [h3] at ha
      exact ⟨e :: used, congrArg (e :: ·) hused, by simpa [hrem, answered, hre, hc] using ha⟩
    · obtain ⟨used, hused, ha⟩ := ih (tick s) h1 h2 (by simp [he]) hrs hend
      rw [h3] at ha
      exact ⟨e :: used, congrArg (e :: ·) hused, by simpa [hrem, answered, hre, hc] using ha⟩
    · refine ⟨[e], ?_, by simp [hrem, answered, hre, hc]⟩
      rw [runWhileBusy_idle _ h1]
      simp [he]

section Finished

variable {i : Instr} {s t : State}

theorem ready_iff : s.ready = true ↔ s.blk.busy = false ∧ s.envNow.rst = false := by
  simp [State.ready]

/-- A finished command other than NOP, issued to a ready block and not reset, took one answer at its issue and then
answers to exactly its micro-operations (R127, R141, R261). -/
theorem answered_of_exec (hi : i ≠ .nop) (hready : s.ready = true) (hr : s.noReset = true)
    (h : exec i s = .next t) (hend : t.blk.busy = false) :
    ∃ e0 es, e0.rst = false ∧ s.env = e0 :: (es ++ t.env) ∧ answered (unrolled i) es = true := by
  obtain ⟨hb, hrst⟩ := ready_iff.1 hready
  obtain rfl : runWhileBusy s.env.tail (s.accepted i) = t := by
    rw [exec_eq_runCommand, runCommand_ready i _ hb hrst] at h
    exact Host.Outcome.next.inj h
  have hbusy : (s.accepted i).blk.busy = true := busy_acceptCommand hi s.blk
  have hrem : (s.accepted i).blk.remaining = unrolled i := remaining_acceptCommand hi s.blk
  cases he : s.env with
  | nil =>
    rw [he] at hend
    exact absurd (hbusy.symm.trans hend) Bool.noConfusion
  | cons e0 rest =>
    obtain ⟨hre, hrs⟩ : e0.rst = false ∧ (s.accepted i).noReset = true := by
      simpa [State.noReset, State.accepted, he] using hr
    obtain ⟨es, hes, ha⟩ := answered_of_runWhileBusy s.env.tail (s.accepted i) hbusy
      (onTrack_acceptCommand hi s.blk) rfl hrs hend
    rw [he, List.tail_cons] at hes
    rw [hrem] at ha
    exact ⟨e0, es, hre, congrArg (e0 :: ·) hes, ha⟩

/-- A finished command other than NOP has made a run of its pseudocode, with the events and the lines of that run
(R210). -/
theorem operation_of_exec (hi : i ≠ .nop) (hready : s.ready = true) (hr : s.noReset = true)
    (h : exec i s = .next t) (hend : t.blk.busy = false) :
    ∃ polls data, let o := s.blk.runOperation i polls data
      t.events = s.events ++ o.events ∧ t.blk.sclDrv = o.scl ∧ t.blk.sdaDrv = o.sda := by
  obtain ⟨e0, es, hre, he, ha⟩ := answered_of_exec hi hready hr h hend
  obtain ⟨hb, -⟩ := ready_iff.1 hready
  obtain ⟨u, hu, -, -, hev, hscl, hsda, -⟩ := exec_meets_operation i hb hre he ha
  obtain rfl : u = t := Host.Outcome.next.inj (hu.symm.trans h)
  exact ⟨_, _, hev, hscl, hsda⟩

end Finished

/-- BEGIN and STOP raise Clock, which ends in a sample that reads high (R126), and release both lines (R38). -/
theorem runOperation_release {i : Instr} (hi : i = .begin ∨ i = .stop) (b : Block) (polls : List Nat)
    (data : List Bool) :
    (b.runOperation i polls data).scl = .released ∧ (b.runOperation i polls data).sda = .released ∧
      Event.sampleScl true ∈ (b.runOperation i polls data).events := by
  rcases hi with rfl | rfl
  · exact ⟨rfl, rfl, by simp [Block.runOperation, opProgram, Prim.run, raiseEvents]⟩
  · exact ⟨rfl, rfl, by simp [Block.runOperation, opProgram, Prim.run, raiseEvents]⟩

/-- WRITE and READ end with Clock driven low and Data released (R38, R160, R164). -/
theorem runOperation_transfer {i : Instr} (hi : i = .write ∨ ∃ a, i = .read a) (b : Block) (polls : List Nat)
    (data : List Bool) :
    (b.runOperation i polls data).scl = .drivenLow ∧ (b.runOperation i polls data).sda = .released := by
  rcases hi with rfl | ⟨a, rfl⟩
  · exact ⟨rfl, rfl⟩
  · exact ⟨rfl, rfl⟩

/-- Settles O29: a finished command has made a run of its pseudocode, which says where the lines are; NOP leaves the
block. -/
theorem linesAtCommandEnd : Obligations.LinesAtCommandEnd := by
  unfold Obligations.LinesAtCommandEnd
  intro i s t hready hr h hend
  by_cases hi : i = .nop
  · subst hi
    obtain ⟨hb, hrst⟩ := ready_iff.1 hready
    rw [exec_eq_runCommand, acceptCommand, runCommand_nop hb hrst] at h
    obtain rfl := Host.Outcome.next.inj h
    simp
  · obtain ⟨polls, data, hev, hscl, hsda⟩ := operation_of_exec hi hready hr h hend
    rw [hscl, hsda]
    refine ⟨fun hc => ?_, ?_, fun hc => runOperation_transfer hc s.blk polls data, fun hc => absurd hc hi⟩
    · obtain ⟨h1, h2, hhigh⟩ := runOperation_release hc s.blk polls data
      exact ⟨h1, h2, _, hev, hhigh⟩
    · rintro rfl
      exact ⟨rfl, rfl⟩

end Sys2Proof.Machine

/-! PROOFS. One step of the machine at a glance (R65, R141, R204): the command the host issues, or one clock cycle; and
what a cycle with reset leaves of either (R52, R234). -/

namespace Sys2Proof.Machine

section Step

variable {s : State} {v : Byte} {rest : List HostOp} {i : Instr}

/-- A legal byte written to CMD is a command issued: the step is its meaning, with the statement taken off (R65). -/
theorem step_of_issued (hp : s.host.prog = .wr .cmd v :: rest) (hv : decodeCommand v = some i) :
    step s = exec i { s with host := { s.host with prog := rest } } := by
  simp [step, State.issued, hp, hv]

/-- When the host issues no legal command the step is one clock cycle (R209). -/
theorem step_of_not_issued
    (h : ∀ (v : Byte) (rest : List HostOp), s.host.prog = .wr .cmd v :: rest → decodeCommand v = none) :
    step s = .next (tick s) := by
  have hnone : s.issued = none := by
    unfold State.issued
    split
    · rename_i v rest hp
      rw [h v rest hp]
    · rfl
  rw [step, hnone]

/-- Every step answers next: no step stops (R13, R230). -/
theorem step_total (s : State) : ∃ t, step s = .next t := by
  unfold step
  split
  · exact ⟨_, exec_eq_runCommand _ _⟩
  · exact ⟨_, rfl⟩

/-- A cycle with reset makes no event (R234 (1), log entry 6). -/
theorem cycleEvents_rst (b : Block) {i : Input} (h : i.rst = true) : cycleEvents b i = [] := by
  simp [cycleEvents, h]

end Step

/-- Settles O4: by what the host's next statement is; the word `withFetchWord` places is such a statement, and taking
it off the program gives the machine back. -/
theorem stepRunsIssuedCommand : Obligations.StepRunsIssuedCommand := by
  unfold Obligations.StepRunsIssuedCommand
  refine ⟨fun s v rest i hp hv _ => step_of_issued hp hv, fun s nbits w i hv => ?_, fun s h => step_of_not_issued h⟩
  exact step_of_issued (s := s.withFetchWord nbits w) rfl hv

/-- Settles O8: reset beats the sequencer and the port, so a cycle and the issue of a command both leave the block
reset. -/
theorem resetBeatsEverything : Obligations.ResetBeatsEverything := by
  unfold Obligations.ResetBeatsEverything
  refine ⟨blockStep_rst, fun s hr => ?_⟩
  obtain ⟨t, ht⟩ := step_total s
  refine ⟨t, ht, ?_⟩
  rcases step_cases ht with rfl | ⟨v, rest, i, -, -, rfl⟩
  · exact ⟨blockStep_rst _ _ hr, by simp [cycleEvents_rst, hr], rfl⟩
  · rw [runCommand_lost i _ (s := { s with host := { s.host with prog := rest } }) hr]
    exact ⟨rfl, rfl, rfl⟩

end Sys2Proof.Machine

/-! PROOFS. The lines and the waits, cycle by cycle (R59 to R62): which micro-operation changes which drive bit, how a
wait goes on and ends, and what the environment contract says of the levels. -/

namespace Sys2Proof.Machine

section Lines

variable (b : Block) (sda : Bool)

/-- SCL_LOW and SCL_REL alone change the drive of Clock (R21, R206). -/
theorem update_sclDrv (u : MicroOp) :
    (u.update b sda).sclDrv = b.sclDrv ∨ (u = .sclLow ∧ (u.update b sda).sclDrv = .drivenLow) ∨
      (u = .sclRel ∧ (u.update b sda).sclDrv = .released) := by
  cases u with
  | sclLow => exact .inr (.inl ⟨rfl, rfl⟩)
  | sclRel => exact .inr (.inr ⟨rfl, rfl⟩)
  | _ => exact .inl rfl

/-- SDA_LOW, SDA_REL, SDA_BIT and SDA_ACK alone change the drive of Data (R22, R206). -/
theorem update_sdaDrv (u : MicroOp) :
    (u.update b sda).sdaDrv = b.sdaDrv ∨ (u = .sdaLow ∧ (u.update b sda).sdaDrv = .drivenLow) ∨
      (u = .sdaRel ∧ (u.update b sda).sdaDrv = .released) ∨
      (u = .sdaBit ∧ (u.update b sda).sdaDrv = driveForBit (b.shreg.getLsbD 7)) ∨
      (u = .sdaAck ∧ (u.update b sda).sdaDrv = driveForBit (!b.ackpol)) := by
  cases u with
  | sdaLow => exact .inr (.inl ⟨rfl, rfl⟩)
  | sdaRel => exact .inr (.inr (.inl ⟨rfl, rfl⟩))
  | sdaBit => exact .inr (.inr (.inr (.inl ⟨rfl, rfl⟩)))
  | sdaAck => exact .inr (.inr (.inr (.inr ⟨rfl, rfl⟩)))
  | _ => exact .inl rfl

end Lines

section Cycle

variable {b : Block} {i : Input}

/-- What a cycle without reset does to the lines: nothing, or the update of the current micro-operation (R206, R209);
the port has no part in it. -/
theorem lines_blockStep (b : Block) {i : Input} (hr : i.rst = false) :
    ((blockStep b i).sclDrv = b.sclDrv ∧ (blockStep b i).sdaDrv = b.sdaDrv) ∨
    ∃ u, b.current = some u ∧ (blockStep b i).sclDrv = (u.update b i.sdaLevel).sclDrv ∧
      (blockStep b i).sdaDrv = (u.update b i.sdaLevel).sdaDrv := by
  cases hb : b.busy with
  | false => exact .inl (lines_blockStep_idle hr hb)
  | true =>
    obtain ⟨tx, ce, hstep⟩ := blockStep_busy b i hr hb
    rcases sequencer_cases b i.sclLevel i.sdaLevel i.dlyDone with ⟨-, h⟩ | ⟨u, -, -, h⟩ | ⟨u, hu, -, h⟩
    · exact .inl (by simp [hstep, h])
    · exact .inl (by simp [hstep, h])
    · exact .inr ⟨u, hu, by simp [hstep, h]⟩

/-- Clock changes its drive by SCL_LOW and SCL_REL alone, to what each drives (R21). -/
theorem sclDrv_change (hr : i.rst = false) (h : (blockStep b i).sclDrv ≠ b.sclDrv) :
    (b.current = some .sclLow ∧ (blockStep b i).sclDrv = .drivenLow) ∨
    (b.current = some .sclRel ∧ (blockStep b i).sclDrv = .released) := by
  rcases lines_blockStep b hr with ⟨hscl, -⟩ | ⟨u, hu, hscl, -⟩
  · exact absurd hscl h
  · rw [hscl] at h ⊢
    rw [hu]
    simpa using (update_sclDrv b i.sdaLevel u).resolve_left h

/-- Data changes its drive by SDA_LOW, SDA_REL, SDA_BIT and SDA_ACK alone, to what each drives (R22). -/
theorem sdaDrv_change (hr : i.rst = false) (h : (blockStep b i).sdaDrv ≠ b.sdaDrv) :
    (b.current = some .sdaLow ∧ (blockStep b i).sdaDrv = .drivenLow) ∨
    (b.current = some .sdaRel ∧ (blockStep b i).sdaDrv = .released) ∨
    (b.current = some .sdaBit ∧ (blockStep b i).sdaDrv = driveForBit (b.shreg.getLsbD 7)) ∨
    (b.current = some .sdaAck ∧ (blockStep b i).sdaDrv = driveForBit (!b.ackpol)) := by
  rcases lines_blockStep b hr with ⟨-, hsda⟩ | ⟨u, hu, -, hsda⟩
  · exact absurd hsda h
  · rw [hsda] at h ⊢
    rw [hu]
    simpa using (update_sdaDrv b i.sdaLevel u).resolve_left h

/-- `dly_req` is 1 exactly while a WAIT is current (R61, R208). -/
theorem dlyReq_iff : b.dlyReq = true ↔ b.current = some .wait := by
  simp [Block.dlyReq]

end Cycle

/-- Settles O16: the micro-operations that change Clock's drive are none of those that change Data's. -/
theorem noCycleChangesBothLines : Obligations.NoCycleChangesBothLines := by
  unfold Obligations.NoCycleChangesBothLines
  refine ⟨fun b i hr => ?_, fun b i hr => sclDrv_change hr, fun b i hr => sdaDrv_change hr⟩
  by_contra hboth
  obtain ⟨hscl, hsda⟩ := not_or.1 hboth
  rcases sclDrv_change hr hscl with ⟨hc, -⟩ | ⟨hc, -⟩ <;> simpa [hc] using sdaDrv_change hr hsda

/-- Settles O15: an unanswered wait is held; an answered one completes, and no wait stands next to another in R202. -/
theorem everyWaitIsASeparateRun : Obligations.EveryWaitIsASeparateRun := by
  unfold Obligations.EveryWaitIsASeparateRun
  intro b i hr hreq
  have hu : b.current = some .wait := dlyReq_iff.1 hreq
  cases hd : i.dlyDone with
  | false => exact dlyReq_iff.2 (current_blockStep_held hr hu hd)
  | true => exact dlyReq_blockStep_wait hr hu hd

section Contract

variable (ext : Bool)

/-! A wire is high exactly when the master has released it and no other device pulls it (R59). -/

@[simp] theorem wireLevel_drivenLow : wireLevel .drivenLow ext = false := rfl
@[simp] theorem wireLevel_pulled : wireLevel d true = false := Bool.and_false _
@[simp] theorem wireLevel_free : wireLevel .released false = true := rfl

/-- Under the contract the two levels are those of the wires (R59). -/
theorem keepsContract_iff {e : EnvCycle} {b : Block} {p : BusPull} :
    e.keepsContract b p = true ↔
      e.sclLevel = wireLevel b.sclDrv p.extSclLow ∧ e.sdaLevel = wireLevel b.sdaDrv p.extSdaLow := by
  simp [EnvCycle.keepsContract, Block.wires]

end Contract

/-- Settles O17: each clause is the level of one wire. -/
theorem contractLevels : Obligations.ContractLevels := by
  unfold Obligations.ContractLevels
  intro b p e h
  obtain ⟨hscl, hsda⟩ := keepsContract_iff.1 h
  rw [hscl, hsda]
  refine ⟨?_, ?_, ?_, ?_, ?_, ?_⟩ <;> simp +contextual

end Sys2Proof.Machine

/-! PROOFS. The register port (R66, R67, R78): the value of each read, what a write to STATUS, TXDATA or RXDATA
changes, and that the command in progress does not look at TXDATA. -/

namespace Sys2Proof.Machine

/-- The eight bits of STATUS, from bit 0 (R66, R68). -/
theorem statusByte_bits (b : Block) (scl sda : Bool) :
    (List.range 8).map (statusByte b scl sda).getLsbD =
      [b.busy, b.ack, scl, sda, b.sclDrv.bit, b.sdaDrv.bit, b.cmderr, false] := by
  have hbits : statusByte b scl sda =
      BitVec.ofBoolListLE [b.busy, b.ack, scl, sda, b.sclDrv.bit, b.sdaDrv.bit, b.cmderr, false] := rfl
  rw [hbits]
  exact (List.map_congr_left fun k _ => BitVec.getLsbD_ofBoolListLE).trans rfl

/-- Without a write the cycle does not see the port's address and data (R66). -/
theorem blockStep_port_unseen (b : Block) {i : Input} (r : Reg) (v : Byte) (hw : i.regWe = false) :
    blockStep b { i with regAddr := r, regWdata := v } = blockStep b i := by
  simp only [blockStep, hw, Bool.false_eq_true, if_false]

/-- Settles O9: each register's read value, and without a write the cycle is the sequencer's, which does not see the
port. -/
theorem registerReadValues : Obligations.RegisterReadValues := by
  unfold Obligations.RegisterReadValues
  intro b i
  have hread : (outputs b i).regRdata = memRead b i.sclLevel i.sdaLevel i.regAddr := rfl
  rw [hread]
  refine ⟨fun h => ?_, fun h => ?_, fun h => ?_, fun h => ?_, fun r v => blockStep_port_unseen b r v⟩ <;> rw [h]
  · rfl
  · exact statusByte_bits b i.sclLevel i.sdaLevel
  · rfl
  · rfl

/-- A write to STATUS touches CMDERR alone (R67). -/
theorem writeStatus_eq (n : Block) (v : Byte) :
    n.writeStatus v = { n with cmderr := if v.getLsbD 6 then false else n.cmderr } := by
  unfold Block.writeStatus
  split <;> rfl

/-- Settles O10: each write acts on what the sequencer makes in the same cycle, which is the cycle without the write. -/
theorem registerWriteEffects : Obligations.RegisterWriteEffects := by
  unfold Obligations.RegisterWriteEffects
  intro b i hr hw
  rw [blockStep_write b i hr hw, blockStep_noWrite b { i with regWe := false } hr rfl]
  refine ⟨fun ha => ?_, fun ha => ?_, fun ha => ?_⟩ <;> rw [ha]
  · rw [registerWrite, writeStatus_eq, sequencer_cmderr]
  · rfl
  · rfl

section Txdata

variable (b : Block) (w : Byte)

/-- No update reads TXDATA (R206). -/
theorem update_setTxdata (u : MicroOp) (sda : Bool) :
    u.update { b with txdata := w } sda = { u.update b sda with txdata := w } := by
  cases u <;> rfl

/-- No advance reads TXDATA (R203, R205, R207). -/
theorem advance_setTxdata (u : MicroOp) :
    ({ b with txdata := w } : Block).advance u = { b.advance u with txdata := w } := by
  have hlast : ({ b with txdata := w } : Block).atLast = b.atLast := rfl
  cases u with
  | shift => rfl
  | bitSample => rfl
  | _ =>
    simp only [Block.advance, hlast]
    split <;> rfl

/-- The sequencer does not read TXDATA: the operand was captured at acceptance (R78). -/
theorem sequencer_setTxdata (scl sda dly : Bool) :
    sequencer { b with txdata := w } scl sda dly = { sequencer b scl sda dly with txdata := w } := by
  have hcur : ({ b with txdata := w } : Block).current = b.current := rfl
  rcases sequencer_cases b scl sda dly with ⟨hu, h⟩ | ⟨u, hu, hc, h⟩ | ⟨u, hu, hc, h⟩ <;> rw [h]
  · simp [sequencer, hcur, hu]
  · exact sequencer_hold _ _ _ _ (hcur.trans hu) hc
  · rw [sequencer_done _ _ _ _ (hcur.trans hu) hc, update_setTxdata, advance_setTxdata]

/-- While busy the port reads TXDATA in no write, and loads it in a write to it alone (R26, R204). -/
theorem registerWrite_setTxdata {s : Block} (n : Block) (r : Reg) (v : Byte) (hb : s.busy = true) :
    registerWrite { s with txdata := w } { n with txdata := w } r v =
      { registerWrite s n r v with txdata := if r = .txdata then v else w } := by
  cases r with
  | cmd =>
    simp only [registerWrite]
    rw [commandIssue_busy s n v hb, commandIssue_busy { s with txdata := w } _ v hb]
    rfl
  | status =>
    simp only [registerWrite, writeStatus_eq]
    rfl
  | txdata => rfl
  | rxdata => rfl

/-- A cycle of a busy block without reset does the same to all but TXDATA, whatever TXDATA holds (R78). -/
theorem blockStep_setTxdata {i : Input} (hb : b.busy = true) (hr : i.rst = false) :
    blockStep { b with txdata := w } i =
      { blockStep b i with txdata := if i.regWe = true ∧ i.regAddr = .txdata then i.regWdata else w } := by
  cases hw : i.regWe with
  | false =>
    rw [blockStep_noWrite _ i hr hw, blockStep_noWrite b i hr hw, sequencer_setTxdata]
    simp
  | true =>
    rw [blockStep_write _ i hr hw, blockStep_write b i hr hw, sequencer_setTxdata, registerWrite_setTxdata w _ _ _ hb]
    simp

/-- A block with another TXDATA is at the same position with the same shifter and policy. -/
theorem alike_setTxdata : b.Alike { b with txdata := w } := ⟨rfl, rfl, rfl, rfl, fun _ => rfl, fun _ => rfl⟩

end Txdata

/-- Settles O41: the next block differs in TXDATA alone, and with it neither the micro-operation's events nor
`dly_req` change. -/
theorem runningCommandIgnoresTxdata : Obligations.RunningCommandIgnoresTxdata := by
  unfold Obligations.RunningCommandIgnoresTxdata
  intro b i w hb hr
  have hstep := blockStep_setTxdata b w hb hr
  refine ⟨hstep, ?_⟩
  have hlike := alike_setTxdata b w
  have hreq : (blockStep { b with txdata := w } i).dlyReq = (blockStep b i).dlyReq := by
    rw [hstep]
    exact (alike_setTxdata _ _).dlyReq
  cases hu : b.current with
  | none => simp [cycleEvents, hlike.current, hu]
  | some u => simp [cycleEvents, hlike.current, hu, hlike.microOpEvents hu, hlike.dlyReq, hreq]

end Sys2Proof.Machine

/-! PROOFS. The command bytes (R92, R96) and the address byte (R94). -/

namespace Sys2Proof.Machine

/-- Settles O1: the decoder gives back each of the six commands, READ with either value of A. -/
theorem encodeThenDecode : Obligations.EncodeThenDecode := by
  unfold Obligations.EncodeThenDecode
  exact fun i _ => decodeCommand_encode i

/-- The seven command bytes of the map (R92). -/
def commandBytes : List Byte := [0x00#8, 0x01#8, 0x02#8, 0x03#8, 0x04#8, 0x05#8, 0x0D#8]

/-- The encoder makes no other byte (R92). -/
theorem encode_mem_commandBytes (i : Instr) : encode i ∈ commandBytes := by
  cases i with
  | read a => cases a <;> decide
  | _ => decide

/-- A byte that decodes is the encoding of what it decodes to, so every other byte is illegal (R92, R96). -/
theorem decodeCommand_of_not_mem {b : Byte} (hb : b ∉ commandBytes) : decodeCommand b = none := by
  cases hd : decodeCommand b with
  | none => rfl
  | some i => exact absurd (encode_of_decodeCommand b hd ▸ encode_mem_commandBytes i) hb

/-- A byte from 16 on has one of bits 7..4 set and is illegal (R95). -/
theorem decodeCommand_of_ge {n : Nat} (h16 : 16 ≤ n) (h256 : n < 256) : decodeCommand (BitVec.ofNat 8 n) = none := by
  refine decodeCommand_of_not_mem fun hmem => ?_
  have hsmall : ∀ b ∈ commandBytes, b.toNat < 16 := by decide
  have hlt := hsmall _ hmem
  rw [BitVec.toNat_ofNat, Nat.mod_eq_of_lt h256] at hlt
  omega

/-- Of the 256 bytes 249 are illegal: 9 below 16 and the 240 others (R96). -/
theorem count_illegalBytes :
    ((List.range 256).filter fun n => (decodeCommand (BitVec.ofNat 8 n)).isNone).length = 249 := by
  have hsplit : List.range 256 = List.range 16 ++ (List.range 240).map (16 + ·) := List.range_add (n := 16) (m := 240)
  have hlow : ((List.range 16).filter fun n => (decodeCommand (BitVec.ofNat 8 n)).isNone).length = 9 := by decide
  have hhigh : ∀ n ∈ (List.range 240).map (16 + ·), (decodeCommand (BitVec.ofNat 8 n)).isNone = true := by
    intro n hn
    obtain ⟨k, hk, rfl⟩ := List.mem_map.1 hn
    have hk := List.mem_range.1 hk
    rw [decodeCommand_of_ge (by omega) (by omega), Option.isNone_none]
  rw [hsplit, List.filter_append, List.length_append, hlow, List.filter_eq_self.2 hhigh, List.length_map,
    List.length_range]

/-- Settles O2: each of the seven bytes is an encoding, and the other bytes are illegal. -/
theorem commandByteMap : Obligations.CommandByteMap := by
  unfold Obligations.CommandByteMap
  exact ⟨decodeCommand_encode .nop, decodeCommand_encode .begin, decodeCommand_encode .start,
    decodeCommand_encode .stop, decodeCommand_encode .write, decodeCommand_encode (.read false),
    decodeCommand_encode (.read true), fun _ => decodeCommand_of_not_mem, count_illegalBytes⟩

/-- The address byte is twice the address plus the direction bit (R94). -/
theorem toNat_addressByte (a : DeviceAddress) (rw : Bool) : (addressByte a rw).toNat = 2 * a.toNat + rw.toNat := by
  rw [addressByte, BitVec.toNat_append, BitVec.toNat_ofBool,
    ← Nat.shiftLeft_add_eq_or_of_lt (i := 1) (Bool.toNat_lt rw), Nat.shiftLeft_eq, Nat.mul_comm, pow_one]

/-- Settles O3: the address has seven bits, so twice the address plus the bit is below 256. -/
theorem addressByteValue : Obligations.AddressByteValue := by
  unfold Obligations.AddressByteValue
  refine ⟨fun a rw => ?_, rfl, rfl, rfl, rfl, rfl⟩
  rw [← toNat_addressByte, Nat.mod_eq_of_lt (addressByte a rw).isLt]

end Sys2Proof.Machine

/-! PROOFS. The host's statements on an idle block (R98 to R101): what a write to TXDATA, a WAITIDLE and a read do in
their cycle, a command with its WAITIDLE, and the pseudo-instructions WRITEB and READB made of them. -/

namespace Sys2Proof.Machine

section Steps

variable {s t : State}

/-- Steps add up. -/
theorem steps_add {m : Nat} (n : Nat) (h : steps m s = .next t) : steps (m + n) s = steps n t := by
  induction m generalizing s with
  | zero => rw [Nat.zero_add, Host.Outcome.next.inj h]
  | succ m ih =>
    obtain ⟨u, hu⟩ := step_total s
    rw [Nat.succ_add]
    simp only [steps, hu] at h ⊢
    exact ih h

theorem steps_one (h : step s = .next t) : steps 1 s = .next t := by
  simp [steps, h]

/-- A script without reset has none in the present cycle, and beyond the script there is none (log entry 3). -/
theorem rst_of_noReset (h : s.noReset = true) : s.envNow.rst = false := by
  cases he : s.env with
  | nil => simp [State.envNow, he]
  | cons e es =>
    rw [envNow_cons s e es he]
    simp_all [State.noReset]

/-- What is left of a script without reset has no reset. -/
theorem noReset_of_suffix (h : s.noReset = true) (ht : t.env <:+ s.env) : t.noReset = true := by
  simp only [State.noReset, List.all_eq_true] at h ⊢
  exact fun e he => h e (ht.subset he)

end Steps

section Statements

variable {s t : State} {o : HostOp} {v : Byte} {prog : List HostOp}

/-- A statement that writes nothing is no command: its step is one clock cycle. -/
theorem step_of_noWrite (hp : s.host.prog = o :: prog) (ho : o.access.we = false) : step s = .next (tick s) := by
  refine step_of_not_issued fun v rest hw => ?_
  obtain ⟨rfl, -⟩ := List.cons.inj (hp.symm.trans hw)
  cases ho

/-- A cycle of an idle block without a write and without reset leaves the block and the history as they are. -/
theorem tick_idle (hp : s.host.prog = o :: prog) (ho : o.access.we = false) (hb : s.blk.busy = false)
    (hr : s.envNow.rst = false) :
    tick s =
      { s with
        env := s.env.tail
        host := s.host.next (memRead s.blk s.envNow.sclLevel s.envNow.sdaLevel o.access.reg)
        cycle := s.cycle + 1 } := by
  have ha : s.host.access = o.access := by simp [HostAgent.access, hp]
  have hblk : blockStep s.blk (inputOf o.access s.envNow) = s.blk :=
    (blockStep_noWrite _ _ hr ho).trans (sequencer_idle _ _ _ _ hb)
  have hev : cycleEvents s.blk (inputOf o.access s.envNow) = [] := by simp [cycleEvents, current_of_idle _ hb]
  simp only [tick, State.cycleWith, ha, hblk, hev, List.append_nil]

/-- WAITIDLE is over in the cycle whose STATUS shows BUSY = 0 (R99, R100). -/
theorem next_waitIdle_idle (hp : s.host.prog = .waitIdle :: prog) (hb : s.blk.busy = false) (scl sda : Bool) :
    s.host.next (statusByte s.blk scl sda) = { s.host with prog := prog } := by
  have h0 : (statusByte s.blk scl sda).getLsbD 0 = false := (statusByte_bit0 _ _ _).trans hb
  simp only [HostAgent.next, hp, h0, Bool.false_eq_true, if_false]

/-- WAITIDLE on an idle block takes one step, which passes a cycle and takes the statement off (R100, log entry 7). -/
theorem step_waitIdle (hp : s.host.prog = .waitIdle :: prog) (hb : s.blk.busy = false) (hr : s.envNow.rst = false) :
    step s = .next
      { s with env := s.env.tail, host := { s.host with prog := prog }, cycle := s.cycle + 1 } := by
  rw [step_of_noWrite hp rfl, tick_idle hp rfl hb hr]
  simp only [HostOp.access, memRead, next_waitIdle_idle hp hb]

/-- RD on an idle block takes one step, which hands the register's value to the host (R54, R98). -/
theorem step_rd {r : Reg} (hp : s.host.prog = .rd r :: prog) (hb : s.blk.busy = false) (hr : s.envNow.rst = false) :
    step s = .next
      { s with
        env := s.env.tail
        host :=
          { s.host with
            prog := prog
            reads := memRead s.blk s.envNow.sclLevel s.envNow.sdaLevel r :: s.host.reads }
        cycle := s.cycle + 1 } := by
  rw [step_of_noWrite hp rfl, tick_idle hp rfl hb hr]
  simp only [HostOp.access, HostAgent.next, hp]

/-- WR TXDATA on an idle block takes one step, which loads TXDATA (R67, R98). -/
theorem step_wr_txdata (hp : s.host.prog = .wr .txdata v :: prog) (hb : s.blk.busy = false)
    (hr : s.envNow.rst = false) :
    step s = .next
      { s with
        blk := { s.blk with txdata := v }
        env := s.env.tail
        host := { s.host with prog := prog }
        cycle := s.cycle + 1 } := by
  have hstep : step s = .next (tick s) :=
    step_of_not_issued fun w rest hw => by simp [hp] at hw
  have ha : s.host.access = { we := true, reg := .txdata, wdata := v } := by
    simp [HostAgent.access, hp, HostOp.access]
  have hblk : blockStep s.blk (inputOf s.host.access s.envNow) = { s.blk with txdata := v } := by
    rw [ha, blockStep_write _ _ hr rfl, sequencer_idle _ _ _ _ hb]
    rfl
  have hev : cycleEvents s.blk (inputOf s.host.access s.envNow) = [] := by
    simp [cycleEvents, current_of_idle _ hb]
  rw [hstep]
  simp only [tick, State.cycleWith, hblk, hev, List.append_nil, HostAgent.next, hp]

end Statements

/-- Settles O44: WAITIDLE reads STATUS and writes nothing, so its step is a cycle; a busy block keeps the waiting host,
and bit 0 of an idle block's STATUS lets it go on. -/
theorem waitIdleBlocksWhileBusy : Obligations.WaitIdleBlocksWhileBusy := by
  unfold Obligations.WaitIdleBlocksWhileBusy
  intro s rest hp
  have hwait : s.host.waiting = true := by simp [HostAgent.waiting, hp]
  refine ⟨tick s, step_of_noWrite hp rfl, fun hb => waiting_next hwait hb, fun hb => ⟨?_, fun hr => ?_⟩⟩
  · rw [tick_host]
    simp only [HostAgent.access, hp, HostOp.access, memRead]
    exact next_waitIdle_idle hp hb _ _
  · rw [tick_idle hp rfl hb hr]

section Commands

variable {s t : State} {i : Instr} {e0 w : EnvCycle} {es rest : List EnvCycle} {prog : List HostOp}

/-- Under a waiting host without reset a command, finished or not, leaves the host and TXDATA as they are (R26,
R100). -/
theorem exec_keeps_host_txdata (hw : s.host.waiting = true) (hr : s.noReset = true) (h : exec i s = .next t) :
    t.host = s.host ∧ t.blk.txdata = s.blk.txdata := by
  rw [exec_eq_runCommand] at h
  obtain rfl := Host.Outcome.next.inj h
  have hkeep : (runCommand i (acceptCommand i) s).noReset = true ∧
      (runCommand i (acceptCommand i) s).host = s.host ∧
      (runCommand i (acceptCommand i) s).blk.txdata = s.blk.txdata := by
    refine runCommand_keeps (P := fun t => t.noReset = true ∧ t.host = s.host ∧ t.blk.txdata = s.blk.txdata) ?_ ?_
    · rw [issueCycle_eq_cycleWith]
      refine ⟨noReset_of_suffix hr (List.tail_suffix _), rfl, ?_⟩
      rw [cycleWith_blk, blockStep_write _ _ (rst_of_noReset hr) rfl]
      simp [issueAccess]
    · rintro u hb ⟨hru, hhost, htx⟩
      rw [tick_waiting (hhost ▸ hw) hb (rst_of_noReset hru)]
      exact ⟨noReset_of_suffix hru (List.tail_suffix _), hhost, (sequencer_txdata _ _ _ _).trans htx⟩
  exact hkeep.2

/-- The run of the operation level that the answers `es` make of the command `i` (R210). -/
def Block.operationOn (b : Block) (i : Instr) (es : List EnvCycle) : OpState :=
  b.runOperation i (pollCounts 0 (unrolled i) es) (dataSamples (unrolled i) es)

/-- `t` is `s` after the command `i`, taken to its end by the answers `es` while the host waited, with `rest` left of
the script: idle, with the lines, results and events of the operation level, and TXDATA as before. -/
structure State.CommandEnd (s t : State) (i : Instr) (es rest : List EnvCycle) : Prop where
  busy : t.blk.busy = false
  env : t.env = rest
  txdata : t.blk.txdata = s.blk.txdata
  sclDrv : t.blk.sclDrv = (s.blk.operationOn i es).scl
  sdaDrv : t.blk.sdaDrv = (s.blk.operationOn i es).sda
  ack : t.blk.ack = (s.blk.operationOn i es).ack
  rxdata : t.blk.rxdata = (s.blk.operationOn i es).rxdata
  events : t.events = s.events ++ (s.blk.operationOn i es).events

/-- A command issued to an idle block under a waiting host and answered to its end (R101, R210). -/
theorem exec_commandEnd (hw : s.host.waiting = true) (hb : s.blk.busy = false) (hr : s.noReset = true)
    (he : s.env = e0 :: (es ++ rest)) (ha : answered (unrolled i) es = true) :
    ∃ t, exec i s = .next t ∧ s.CommandEnd t i es rest ∧ t.host = s.host := by
  have hre : e0.rst = false := envNow_cons s e0 _ he ▸ rst_of_noReset hr
  obtain ⟨t, ht, hidle, henv, hev, hscl, hsda, hack, hrx⟩ := exec_meets_operation i hb hre he ha
  obtain ⟨hhost, htx⟩ := exec_keeps_host_txdata hw hr ht
  exact ⟨t, ht, ⟨hidle, henv, htx, hscl, hsda, hack, hrx, hev⟩, hhost⟩

/-- DO: a command and its WAITIDLE take two steps, the whole command and the cycle that reads BUSY = 0 (R99, R100,
log entry 7). -/
theorem steps_doOps (hp : s.host.prog = doOps i ++ prog) (hb : s.blk.busy = false) (hr : s.noReset = true)
    (he : s.env = e0 :: (es ++ w :: rest)) (ha : answered (unrolled i) es = true) :
    ∃ t, steps 2 s = .next t ∧ s.CommandEnd t i es rest ∧ t.host = { s.host with prog := prog } := by
  obtain ⟨t, ht, hend, hhost⟩ :=
    exec_commandEnd (s := { s with host := { s.host with prog := .waitIdle :: prog } }) rfl hb hr he ha
  have hstep : step s = .next t := (step_of_issued hp (decodeCommand_encode i)).trans ht
  have hrt : t.noReset = true := noReset_of_suffix hr (by rw [hend.env, he]; exact ⟨e0 :: es, rfl⟩)
  have hwait := step_waitIdle (s := t) (by rw [hhost]) hend.busy (rst_of_noReset hrt)
  refine ⟨_, (steps_add 1 (steps_one hstep)).trans (steps_one hwait), ?_, by rw [hhost]⟩
  exact { hend with env := by rw [hend.env]; rfl }

end Commands

/-- A command answered to its end was given as many Data samples as it makes (R124). -/
theorem length_dataSamples {us : List MicroOp} {es : List EnvCycle} (ha : answered us es = true) :
    (dataSamples us es).length = us.countP MicroOp.samplesData := by
  induction es generalizing us with
  | nil =>
    cases us with
    | nil => rfl
    | cons u us => cases ha
  | cons e es ih =>
    cases us with
    | nil => cases ha
    | cons u us =>
      simp only [answered, Bool.and_eq_true] at ha
      cases hc : u.completes e.sclLevel e.dlyDone with
      | false => simpa [dataSamples, hc] using ih (by simpa [hc] using ha.2)
      | true =>
        have hlen := ih (us := us) (by simpa [hc] using ha.2)
        cases hu : u.samplesData <;> simp [dataSamples, hc, hu, hlen]

section Results

variable (b : Block) {es : List EnvCycle}

/-- ACK is the negation of WRITE's one Data sample (R160, R162). -/
theorem dataSamples_write (ha : answered (unrolled .write) es = true) :
    dataSamples (unrolled .write) es = [!(b.operationOn .write es).ack] := by
  have hlen : (dataSamples (unrolled .write) es).length = 1 := length_dataSamples ha
  obtain ⟨v, hv⟩ := List.length_eq_one_iff.1 hlen
  have hack : (b.operationOn .write es).ack = !v := by rw [Block.operationOn, hv]; rfl
  rw [hack, hv, Bool.not_not]

/-- READ's bit loop shifts its samples into the accumulator, the first one first (R164, R165). -/
theorem opRun_readBits (o : OpState) {n : Nat} (h : o.data.length = n) :
    (opRun (List.replicate n readBitPrims).flatten o).acc = o.data.foldl shiftIn o.acc := by
  induction n generalizing o with
  | zero => rw [List.length_eq_zero_iff.1 h]; rfl
  | succ n ih =>
    obtain ⟨v, l, hd⟩ := List.exists_cons_of_length_eq_add_one h
    rw [List.replicate_succ, List.flatten_cons, opRun_append, ih, hd]
    · simp [readBitPrims, Prim.run, hd]
    · simpa [readBitPrims, Prim.run] using congrArg Nat.pred h

/-- READ delivers the byte of its eight Data samples (R164, R165). -/
theorem rxdata_read {a : Bool} (ha : answered (unrolled (.read a)) es = true) :
    (b.operationOn (.read a) es).rxdata = byteOfSamples (dataSamples (unrolled (.read a)) es) := by
  have hlen : (dataSamples (unrolled (.read a)) es).length = 8 := length_dataSamples ha
  exact opRun_readBits (Prim.sdaRelease.run (b.opStart _ _)) hlen

end Results

/-- Settles O45: the write to TXDATA, then WRITE with its WAITIDLE, then the read of STATUS, whose bits 0 and 1 are
BUSY and ACK. -/
theorem writebReturnsAck : Obligations.WritebReturnsAck := by
  unfold Obligations.WritebReturnsAck
  intro s v prog x e0 w r es rest hp hb he hr ha
  have hload := step_wr_txdata hp hb (rst_of_noReset hr)
  obtain ⟨t, hdo, hend, hhost⟩ := steps_doOps (i := .write) (prog := .rd .status :: prog)
    (s := { s with
      blk := { s.blk with txdata := v }
      env := s.env.tail
      host := { s.host with prog := doOps .write ++ .rd .status :: prog }
      cycle := s.cycle + 1 })
    rfl hb (noReset_of_suffix hr (List.tail_suffix _)) (by rw [he]; rfl) ha
  have hrt : t.noReset = true :=
    noReset_of_suffix hr (by rw [hend.env, he]; exact ⟨x :: e0 :: (es ++ [w]), by simp⟩)
  have hread := step_rd (s := t) (by rw [hhost]) hend.busy (rst_of_noReset hrt)
  refine ⟨_, _, t.blk.ack,
    (steps_add 3 (steps_one hload)).trans ((steps_add 1 hdo).trans (steps_one hread)), rfl, by rw [hhost], ?_, ?_,
    rfl, ?_, hend.txdata, by rw [hend.env]; rfl⟩
  · exact (statusByte_bit0 _ _ _).trans hend.busy
  · exact statusByte_bit1 _ _ _
  · rw [hend.ack]
    exact dataSamples_write _ ha

/-- Settles O46: READ with its WAITIDLE, then the read of RXDATA, which holds the byte received. -/
theorem readbReturnsByte : Obligations.ReadbReturnsByte := by
  unfold Obligations.ReadbReturnsByte
  intro s a prog e0 w r es rest hp hb he hr ha
  obtain ⟨t, hdo, hend, hhost⟩ := steps_doOps (i := .read a) (prog := .rd .rxdata :: prog) hp hb hr he ha
  have hrt : t.noReset = true :=
    noReset_of_suffix hr (by rw [hend.env, he]; exact ⟨e0 :: (es ++ [w]), by simp⟩)
  have hread := step_rd (s := t) (by rw [hhost]) hend.busy (rst_of_noReset hrt)
  refine ⟨_, (steps_add 1 hdo).trans (steps_one hread), rfl, ?_, by rw [hend.env]; rfl⟩
  simp only [hhost, memRead, hend.rxdata, rxdata_read _ ha]

end Sys2Proof.Machine

/-! PROOFS. The two lines together (R129, R130): where a micro-operation drives Data the invariant has Clock driven
low, or the drive is one of the two condition edges, or it changes nothing. -/

namespace Sys2Proof.Machine

section Positions

/-! The positions of the micro-operations that drive Data (R202). -/

variable {b : Block}

theorem position_of_sdaLow (h : b.current = some .sdaLow) :
    (b.op = 2#3 ∧ b.ustep = 5#4) ∨ (b.op = 3#3 ∧ b.ustep = 2#4) := by
  have key : ∀ (op : BitVec 3) (k : BitVec 4), (microProgram op)[k.toNat]? = some .sdaLow →
      (op = 2#3 ∧ k = 5#4) ∨ (op = 3#3 ∧ k = 2#4) := by decide
  exact key b.op b.ustep (current_eq_some.1 h).2

theorem position_of_sdaRel (h : b.current = some .sdaRel) :
    ((b.op = 1#3 ∨ b.op = 2#3 ∨ b.op = 5#3) ∧ b.ustep = 0#4) ∨ (b.op = 3#3 ∧ b.ustep = 7#4) ∨
      (b.op = 4#3 ∧ b.ustep = 8#4) ∨ (b.op = 5#3 ∧ b.ustep = 14#4) := by
  have key : ∀ (op : BitVec 3) (k : BitVec 4), (microProgram op)[k.toNat]? = some .sdaRel →
      ((op = 1#3 ∨ op = 2#3 ∨ op = 5#3) ∧ k = 0#4) ∨ (op = 3#3 ∧ k = 7#4) ∨ (op = 4#3 ∧ k = 8#4) ∨
        (op = 5#3 ∧ k = 14#4) := by decide
  exact key b.op b.ustep (current_eq_some.1 h).2

theorem position_of_sdaBit (h : b.current = some .sdaBit) : b.op = 4#3 ∧ b.ustep = 1#4 := by
  have key : ∀ (op : BitVec 3) (k : BitVec 4), (microProgram op)[k.toNat]? = some .sdaBit →
      op = 4#3 ∧ k = 1#4 := by decide
  exact key b.op b.ustep (current_eq_some.1 h).2

theorem position_of_sdaAck (h : b.current = some .sdaAck) : b.op = 5#3 ∧ b.ustep = 8#4 := by
  have key : ∀ (op : BitVec 3) (k : BitVec 4), (microProgram op)[k.toNat]? = some .sdaAck →
      op = 5#3 ∧ k = 8#4 := by decide
  exact key b.op b.ustep (current_eq_some.1 h).2

theorem current_startEdge (hb : b.busy = true) (ho : b.op = 2#3) (hk : b.ustep = 5#4) : b.current = some .sdaLow :=
  current_eq_some.2 ⟨hb, by rw [ho, hk]; rfl⟩

theorem current_stopEdge (hb : b.busy = true) (ho : b.op = 3#3) (hk : b.ustep = 7#4) : b.current = some .sdaRel :=
  current_eq_some.2 ⟨hb, by rw [ho, hk]; rfl⟩

end Positions

section Lines

variable {b : Block}

@[simp] theorem bit_eq_true {d : LineDrive} : d.bit = true ↔ d = .drivenLow := by cases d <;> decide
@[simp] theorem bit_eq_false {d : LineDrive} : d.bit = false ↔ d = .released := by cases d <;> decide

/-- Before START's edge both lines are released (R38, R144). -/
theorem lines_startEdge (hl : b.linesOk = true) (hb : b.busy = true) (ho : b.op = 2#3) (hk : b.ustep = 5#4) :
    b.sclDrv = .released ∧ b.sdaDrv = .released := by
  simpa [Block.linesOk, hb, ho, hk] using hl

/-- Before STOP's edge Clock is released and Data driven low (R38, R146). -/
theorem lines_stopEdge (hl : b.linesOk = true) (hb : b.busy = true) (ho : b.op = 3#3) (hk : b.ustep = 7#4) :
    b.sclDrv = .released ∧ b.sdaDrv = .drivenLow := by
  simpa [Block.linesOk, hb, ho, hk] using hl

/-- SDA_LOW finds Clock driven low, but at START's edge (R130). -/
theorem sclDrv_of_sdaLow (hl : b.linesOk = true) (hu : b.current = some .sdaLow) :
    b.sclDrv = .drivenLow ∨ (b.op = 2#3 ∧ b.ustep = 5#4) := by
  rcases position_of_sdaLow hu with hedge | ⟨ho, hk⟩
  · exact .inr hedge
  · exact .inl (by simpa [Block.linesOk, busy_of_current b hu, ho, hk] using hl)

/-- SDA_REL finds Clock driven low or Data already released, but at STOP's edge (R130). -/
theorem sclDrv_of_sdaRel (hl : b.linesOk = true) (hu : b.current = some .sdaRel) :
    b.sclDrv = .drivenLow ∨ b.sdaDrv = .released ∨ (b.op = 3#3 ∧ b.ustep = 7#4) := by
  have hb : b.busy = true := busy_of_current b hu
  rcases position_of_sdaRel hu with ⟨ho, hk⟩ | hedge | ⟨ho, hk⟩ | ⟨ho, hk⟩
  · have hquiet : b.sclDrv = .drivenLow ∨ b.sdaDrv = .released := by
      rcases ho with ho | ho | ho <;> simpa [Block.linesOk, hb, ho, hk] using hl
    exact hquiet.imp_right .inl
  · exact .inr (.inr hedge)
  · exact .inl (by simpa [Block.linesOk, hb, ho, hk] using hl)
  · have hlines : b.sclDrv = .drivenLow ∧ b.sdaDrv.bit = b.ackpol := by
      simpa [Block.linesOk, hb, ho, hk] using hl
    exact .inl hlines.1

/-- SDA_BIT finds Clock driven low (R130). -/
theorem sclDrv_of_sdaBit (hl : b.linesOk = true) (hu : b.current = some .sdaBit) : b.sclDrv = .drivenLow := by
  obtain ⟨ho, hk⟩ := position_of_sdaBit hu
  simpa [Block.linesOk, busy_of_current b hu, ho, hk] using hl

/-- SDA_ACK finds Clock driven low (R130). -/
theorem sclDrv_of_sdaAck (hl : b.linesOk = true) (hu : b.current = some .sdaAck) : b.sclDrv = .drivenLow := by
  obtain ⟨ho, hk⟩ := position_of_sdaAck hu
  have hlines : b.sclDrv = .drivenLow ∧ b.sdaDrv = .released := by
    simpa [Block.linesOk, busy_of_current b hu, ho, hk] using hl
  exact hlines.1

end Lines

section Cycle

variable {b : Block} {i : Input}

/-- Where Data changes its drive under the invariant: with Clock driven low, or at one of the two edges of a busy
block (R130). -/
theorem sdaDrv_change_cases (hl : b.linesOk = true) (hr : i.rst = false)
    (h : (blockStep b i).sdaDrv ≠ b.sdaDrv) :
    b.sclDrv = .drivenLow ∨
    (b.busy = true ∧ b.op = 2#3 ∧ b.ustep = 5#4 ∧ (blockStep b i).sdaDrv = .drivenLow) ∨
    (b.busy = true ∧ b.op = 3#3 ∧ b.ustep = 7#4 ∧ (blockStep b i).sdaDrv = .released) := by
  rcases sdaDrv_change hr h with ⟨hu, hd⟩ | ⟨hu, hd⟩ | ⟨hu, -⟩ | ⟨hu, -⟩
  · rcases sclDrv_of_sdaLow hl hu with hscl | ⟨ho, hk⟩
    · exact .inl hscl
    · exact .inr (.inl ⟨busy_of_current b hu, ho, hk, hd⟩)
  · rcases sclDrv_of_sdaRel hl hu with hscl | hsda | ⟨ho, hk⟩
    · exact .inl hscl
    · exact absurd (hd.trans hsda.symm) h
    · exact .inr (.inr ⟨busy_of_current b hu, ho, hk, hd⟩)
  · exact .inl (sclDrv_of_sdaBit hl hu)
  · exact .inl (sclDrv_of_sdaAck hl hu)

/-- In the cycle of a completed micro-operation the lines become those of its update (R206), whatever the host
writes. -/
theorem lines_blockStep_done {u : MicroOp} (hr : i.rst = false) (hu : b.current = some u)
    (hc : u.completes i.sclLevel i.dlyDone = true) :
    (blockStep b i).sclDrv = (u.update b i.sdaLevel).sclDrv ∧
      (blockStep b i).sdaDrv = (u.update b i.sdaLevel).sdaDrv := by
  obtain ⟨tx, ce, hstep⟩ := blockStep_busy b i hr (busy_of_current b hu)
  simp [hstep, sequencer_done b _ _ _ hu hc]

/-- With no other device pulling, the two wires are high exactly where the master releases them (R59). -/
theorem wires_none (b : Block) : b.wires BusPull.none = (!b.sclDrv.bit, !b.sdaDrv.bit) := by
  simp [Block.wires, wireLevel, BusPull.none]

/-- START's edge takes the wires from (1,1) to (1,0) (R129, R144). -/
theorem wires_startEdge (hl : b.linesOk = true) (hr : i.rst = false) (hb : b.busy = true) (ho : b.op = 2#3)
    (hk : b.ustep = 5#4) :
    b.wires BusPull.none = (true, true) ∧ (blockStep b i).wires BusPull.none = (true, false) := by
  obtain ⟨hscl, hsda⟩ := lines_startEdge hl hb ho hk
  obtain ⟨hscl', hsda'⟩ := lines_blockStep_done hr (current_startEdge hb ho hk) rfl
  simp [wires_none, hscl, hsda, hscl', hsda', MicroOp.update]

/-- STOP's edge takes the wires from (1,0) to (1,1) (R129, R146). -/
theorem wires_stopEdge (hl : b.linesOk = true) (hr : i.rst = false) (hb : b.busy = true) (ho : b.op = 3#3)
    (hk : b.ustep = 7#4) :
    b.wires BusPull.none = (true, false) ∧ (blockStep b i).wires BusPull.none = (true, true) := by
  obtain ⟨hscl, hsda⟩ := lines_stopEdge hl hb ho hk
  obtain ⟨hscl', hsda'⟩ := lines_blockStep_done hr (current_stopEdge hb ho hk) rfl
  simp [wires_none, hscl, hsda, hscl', hsda', MicroOp.update]

end Cycle

/-- Settles O18: each micro-operation that drives Data finds Clock driven low, or stands at one of the two edges, or
finds Data as it would drive it. -/
theorem dataChangesOnlyWithClockLow : Obligations.DataChangesOnlyWithClockLow := by
  unfold Obligations.DataChangesOnlyWithClockLow
  intro b i _ hl hr h
  exact (sdaDrv_change_cases hl hr h).imp_right (Or.imp And.right And.right)

/-- Settles O19: the two edges by the lines before and after them; any other change of Data falls under a Clock driven
low. -/
theorem onlyStartAndStopMakeConditions : Obligations.OnlyStartAndStopMakeConditions := by
  unfold Obligations.OnlyStartAndStopMakeConditions
  intro b i _ hl hr
  refine ⟨wires_startEdge hl hr, wires_stopEdge hl hr, fun hclk _ hedge => ?_⟩
  simp only [wires_none] at hclk hedge
  have hchange : (blockStep b i).sdaDrv ≠ b.sdaDrv := fun h => hedge (by rw [h])
  rcases sdaDrv_change_cases hl hr hchange with hscl | ⟨hb, ho, hk, -⟩ | ⟨hb, ho, hk, -⟩
  · simp [hscl] at hclk
  · exact ⟨hb, .inl ⟨ho, hk⟩⟩
  · exact ⟨hb, .inr ⟨ho, hk⟩⟩

end Sys2Proof.Machine

/-! PROOFS. No timeout and no early end (R127, R141, R237, R261): what a finished command was given, and a poll that
never reads Clock high. -/

namespace Sys2Proof.Machine

/-- Settles O30: a finished command's run has used answers to exactly its micro-operations. -/
theorem finishedCommandWasAnswered : Obligations.FinishedCommandWasAnswered := by
  unfold Obligations.FinishedCommandWasAnswered
  intro i s t hi hready hr h hend
  obtain ⟨e0, es, -, he, ha⟩ := answered_of_exec hi hready hr h hend
  exact ⟨e0, es, he, ha⟩

/-- A step of a busy block is one cycle, whatever the host does: a command it issues is rejected in that cycle (R232,
log entry 1). -/
theorem step_of_busy {s : State} (hb : s.blk.busy = true) : ∃ a g, step s = .next (s.cycleWith a g) := by
  obtain ⟨t, ht⟩ := step_total s
  rcases step_cases ht with rfl | ⟨v, rest, i, -, -, rfl⟩
  · exact ⟨_, _, ht⟩
  · rw [runCommand_busy (s := { s with host := { s.host with prog := rest } }) i _ hb, issueCycle_eq_cycleWith] at ht
    exact ⟨_, _, ht⟩

section LowPoll

variable {b : Block} {i : Input} (hr : i.rst = false) (hu : b.current = some .sclPoll) (hlow : i.sclLevel = false)

include hr hu hlow

/-- A poll that reads low leaves the block but for what the host may write (R126, R209). -/
theorem blockStep_lowPoll : ∃ tx ce, blockStep b i = { b with txdata := tx, cmderr := ce } := by
  have hheld : sequencer b i.sclLevel i.sdaLevel i.dlyDone = b := sequencer_hold b _ _ _ hu hlow
  simpa only [hheld] using blockStep_busy b i hr (busy_of_current b hu)

/-- A poll that reads low makes one sample and no other event (R126, R131). -/
theorem cycleEvents_lowPoll : cycleEvents b i = [.sampleScl false] := by
  have hnext : (blockStep b i).current = some .sclPoll := current_blockStep_held hr hu hlow
  simpa [Block.pending, hu, hnext] using cycleEvents_held 0 hr hu hlow

end LowPoll

/-- One step at a poll whose answer reads low: still at the poll, with one more low sample, whatever the host does
(R127, R237). -/
theorem step_lowPoll {s : State} {e : EnvCycle} {es : List EnvCycle} (hu : s.blk.current = some .sclPoll)
    (he : s.env = e :: es) (hr : e.rst = false) (hlow : e.sclLevel = false) :
    ∃ t tx ce, step s = .next t ∧ t.blk = { s.blk with txdata := tx, cmderr := ce } ∧ t.env = es ∧
      t.events = s.events ++ [.sampleScl false] := by
  obtain ⟨a, g, hstep⟩ := step_of_busy (busy_of_current _ hu)
  obtain ⟨tx, ce, hblk⟩ := blockStep_lowPoll (i := inputOf a e) hr hu hlow
  refine ⟨_, tx, ce, hstep, ?_, ?_, ?_⟩
  · rw [cycleWith_blk, envNow_cons s e es he, hblk]
  · rw [cycleWith_env, he, List.tail_cons]
  · rw [cycleWith_events, envNow_cons s e es he, cycleEvents_lowPoll (i := inputOf a e) hr hu hlow]

/-- Settles O31, by induction on the number of steps: each is one more poll that reads low. -/
theorem clockHeldLowNeverEnds : Obligations.ClockHeldLowNeverEnds := by
  unfold Obligations.ClockHeldLowNeverEnds
  intro n
  induction n with
  | zero => exact fun s hu _ _ => ⟨s, rfl, rfl, hu, by simp⟩
  | succ n ih =>
    intro s hu hn hlow
    obtain ⟨e, es, he⟩ := List.exists_cons_of_length_pos (Nat.zero_lt_of_lt hn)
    rw [he] at hn hlow
    obtain ⟨hre, hle⟩ := hlow e List.mem_cons_self
    obtain ⟨t, tx, ce, hstep, hblk, henv, hev⟩ := step_lowPoll hu he hre hle
    have ht : t.blk.current = some .sclPoll := by rw [hblk]; exact hu
    obtain ⟨u, hsteps, hublk, hucur, huev⟩ :=
      ih t ht (by rw [henv]; exact Nat.le_of_succ_le_succ hn)
        (by rw [henv]; exact fun e' h => hlow e' (List.mem_cons_of_mem _ h))
    refine ⟨u, ?_, ?_, hucur, ?_⟩
    · simpa only [steps, hstep] using hsteps
    · rw [hblk] at hublk
      exact hublk
    · rw [huev, hev, List.replicate_succ, List.append_assoc, List.singleton_append]

end Sys2Proof.Machine

/-! PROOFS. BEGIN, START and STOP as whole commands (R142, R144, R146): they drive the lines, move the sequencer and
touch nothing else of the block; answered to their end they leave the lines and the events of their pseudocode. -/

namespace Sys2Proof.Machine

section Course

variable {s : State} {rest : List EnvCycle}

/-- While the block is busy, the script holds answers to exactly what remains of the command, and then `rest`. -/
def State.OnCourse (s : State) (rest : List EnvCycle) : Prop :=
  s.blk.busy = true →
    s.blk.onTrack ∧ ∃ es, s.env = es ++ rest ∧ answered s.blk.remaining es = true

/-- A command answered to its end meets no reset on its way, whatever the host does (R261). -/
theorem onCourse_tick (hb : s.blk.busy = true) (h : s.OnCourse rest) :
    s.envNow.rst = false ∧ (tick s).OnCourse rest := by
  obtain ⟨ht, es, he, ha⟩ := h hb
  cases es with
  | nil =>
    obtain ⟨u, us, hrem⟩ := List.exists_cons_of_ne_nil (remaining_ne_nil hb ht)
    simp [hrem, answered] at ha
  | cons e es =>
    have hn : s.envNow = e := envNow_cons s e (es ++ rest) he
    have hr : e.rst = false := rst_of_answered ha (remaining_ne_nil hb ht)
    have htail : (tick s).env = es ++ rest := by simp [he]
    have hblk : (tick s).blk = blockStep s.blk (inputOf s.host.access e) := by rw [tick_blk, hn]
    obtain ⟨u, us, hrem, -, hcase⟩ := blockStep_remaining (i := inputOf s.host.access e) hb ht hr
    rw [hrem] at ha
    rw [← hblk, inputOf_sclLevel, inputOf_dlyDone] at hcase
    refine ⟨hn ▸ hr, fun hbusy => ?_⟩
    rcases hcase with ⟨hc, -, h2, h3⟩ | ⟨hc, -, -, h2, h3⟩ | ⟨-, -, h1⟩
    · exact ⟨h2, es, htail, by rw [h3]; simpa [answered, hr, hc] using ha⟩
    · exact ⟨h2, es, htail, by rw [h3]; simpa [answered, hr, hc] using ha⟩
    · exact absurd (hbusy.symm.trans h1) Bool.noConfusion

/-- An accepted command that the script answers to its end is on its course (R204). -/
theorem onCourse_accepted {i : Instr} {e0 : EnvCycle} {es : List EnvCycle} (hi : i ≠ .nop)
    (he : s.env = e0 :: (es ++ rest)) (ha : answered (unrolled i) es = true) : (s.accepted i).OnCourse rest :=
  fun _ => ⟨onTrack_acceptCommand hi s.blk, es, by simp [State.accepted, he],
    (remaining_acceptCommand hi s.blk).symm ▸ ha⟩

/-- A cycle of a script without reset has none, and leaves a script without reset (log entry 3). -/
theorem noReset_tick (h : s.noReset = true) : s.envNow.rst = false ∧ (tick s).noReset = true :=
  ⟨rst_of_noReset h, noReset_of_suffix h (List.tail_suffix _)⟩

/-- A command on a ready block is its run from acceptance (R141, R204). -/
theorem exec_ready (i : Instr) (h : s.ready = true) :
    exec i s = .next (runWhileBusy s.env.tail (s.accepted i)) := by
  obtain ⟨hb, hr⟩ := ready_iff.1 h
  rw [exec_eq_runCommand, runCommand_ready i _ hb hr]
  rfl

end Course

section Frame

variable {b c : Block} {u : MicroOp}

/-- The block `b` in the course of BEGIN, START or STOP, or after it: only the lines and the sequencer position are
not those of `b`. -/
inductive Block.InCondition (b : Block) : Block → Prop where
  | running (scl sda : LineDrive) (op : BitVec 3) (k : BitVec 4) (hop : op = 1#3 ∨ op = 2#3 ∨ op = 3#3) :
      b.InCondition { ((b.driveScl scl).driveSda sda).startCommand op with ustep := k }
  | finished (scl sda : LineDrive) : b.InCondition ((b.driveScl scl).driveSda sda).finish

/-- A micro-operation of BEGIN, START or STOP drives the lines and does nothing else (R202, R206). -/
theorem update_condition (hop : b.op = 1#3 ∨ b.op = 2#3 ∨ b.op = 3#3) (hu : b.current = some u) (sda : Bool) :
    ∃ c d, u.update b sda = (b.driveScl c).driveSda d := by
  have key : ∀ op : BitVec 3, op = 1#3 ∨ op = 2#3 ∨ op = 3#3 →
      ∀ u ∈ microProgram op, u ∈ [.sclLow, .sclRel, .sdaLow, .sdaRel, .wait, .sclPoll] := by decide
  have hmem := key b.op hop u (List.mem_of_getElem? (current_eq_some.1 hu).2)
  simp only [List.mem_cons, List.not_mem_nil, or_false] at hmem
  rcases hmem with rfl | rfl | rfl | rfl | rfl | rfl <;> exact ⟨_, _, rfl⟩

/-- The sequencer keeps to the lines and its position during BEGIN, START and STOP (R205, R206). -/
theorem Block.InCondition.sequencer (h : b.InCondition c) (scl sda dly : Bool) :
    b.InCondition (sequencer c scl sda dly) := by
  cases h with
  | finished => rw [sequencer_idle _ _ _ _ rfl]; exact .finished _ _
  | running x y op k hop =>
    rcases sequencer_cases { ((b.driveScl x).driveSda y).startCommand op with ustep := k } scl sda dly with
      ⟨-, hs⟩ | ⟨u, -, -, hs⟩ | ⟨u, hu, -, hs⟩ <;> rw [hs]
    · exact .running x y op k hop
    · exact .running x y op k hop
    · obtain ⟨x', y', hupd⟩ := update_condition hop hu sda
      rw [hupd]
      rcases advance_cases _ u with hadv | ⟨k', hadv⟩ <;> rw [hadv]
      · exact .finished x' y'
      · exact .running x' y' op k' hop

/-- During BEGIN, START and STOP the data registers and the flags stand still (R28, R205). -/
theorem Block.InCondition.frame (h : b.InCondition c) :
    c.shreg = b.shreg ∧ c.txdata = b.txdata ∧ c.rxdata = b.rxdata ∧ c.ack = b.ack ∧ c.ackpol = b.ackpol ∧
      c.cmderr = b.cmderr := by
  cases h with
  | running => exact ⟨rfl, rfl, rfl, rfl, rfl, rfl⟩
  | finished => exact ⟨rfl, rfl, rfl, rfl, rfl, rfl⟩

/-- Acceptance of BEGIN, START or STOP sets the sequencer position and leaves the lines (R204). -/
theorem Block.InCondition.acceptCommand {i : Instr} (hi : i = .begin ∨ i = .start ∨ i = .stop) (b : Block) :
    b.InCondition (acceptCommand i b) := by
  rcases hi with rfl | rfl | rfl
  · exact .running b.sclDrv b.sdaDrv 1#3 0#4 (.inl rfl)
  · exact .running b.sclDrv b.sdaDrv 2#3 0#4 (.inr (.inl rfl))
  · exact .running b.sclDrv b.sdaDrv 3#3 0#4 (.inr (.inr rfl))

end Frame

/-- The block `b` after a finished condition: idle, with the lines of the operation-level run `o` (R205). -/
def Block.withLines (b : Block) (o : OpState) : Block := ((b.driveScl o.scl).driveSda o.sda).finish

/-- A finished condition left the block as it was but for the lines. -/
theorem Block.InCondition.eq_withLines {b c : Block} {o : OpState} (h : b.InCondition c) (hb : c.busy = false)
    (hscl : c.sclDrv = o.scl) (hsda : c.sdaDrv = o.sda) : c = b.withLines o := by
  cases h with
  | running => cases hb
  | finished scl sda =>
    obtain rfl : scl = o.scl := hscl
    obtain rfl : sda = o.sda := hsda
    rfl

/-- An idle block at a legal position, given the lines it has, is unchanged (R37 (a)). -/
theorem withLines_eq_self {b : Block} {o : OpState} (hb : b.busy = false) (hp : b.positionOk = true)
    (hscl : b.sclDrv = o.scl) (hsda : b.sdaDrv = o.sda) : b.withLines o = b := by
  obtain ⟨hop, hk, hcnt⟩ := (positionOk_idle hb).1 hp
  cases b
  simp_all [Block.withLines, Block.driveScl, Block.driveSda, Block.finish]

/-- A second condition leaves the lines as it drives them, whatever the first one did. -/
theorem withLines_withLines (b : Block) (o o' : OpState) : (b.withLines o).withLines o' = b.withLines o' := rfl

/-- A machine is the one after a command when each of its fields is. -/
theorem State.eq_afterCommand {s t : State} {b : Block} {es rest : List EnvCycle} {evs : List Event}
    (hblk : t.blk = b) (henv : t.env = rest) (hhost : t.host = s.host) (hcycle : t.cycle = s.cycle + 1 + es.length)
    (hevents : t.events = s.events ++ evs) : t = s.afterCommand b es rest evs := by
  cases t
  simp_all [State.afterCommand]

/-- The machine after the condition `i`, answered to its end by `es`, with `rest` left of the script. -/
def State.afterCondition (s : State) (i : Instr) (es rest : List EnvCycle) : State :=
  s.afterCommand (s.blk.withLines (s.blk.operationOn i es)) es rest (s.blk.operationOn i es).events

section Conditions

variable {i : Instr} {s t : State} {e0 : EnvCycle} {es rest : List EnvCycle}

/-- BEGIN, START and STOP are not NOP. -/
theorem ne_nop_of_condition (hi : i = .begin ∨ i = .start ∨ i = .stop) : i ≠ .nop := by
  rcases hi with rfl | rfl | rfl <;> exact Instr.noConfusion

/-- Under a waiting host BEGIN, START and STOP, finished or in progress, change only the lines and the sequencer
position of the block, and leave the host. That no reset comes while they run is what `N` brings along. -/
theorem exec_inCondition {N : State → Prop} (hi : i = .begin ∨ i = .start ∨ i = .stop) (hready : s.ready = true)
    (hw : s.host.waiting = true) (hN : N (s.accepted i))
    (htick : ∀ t : State, t.blk.busy = true → N t → t.envNow.rst = false ∧ N (tick t)) (h : exec i s = .next t) :
    t.host = s.host ∧ s.blk.InCondition t.blk := by
  rw [exec_ready i hready] at h
  obtain rfl := Host.Outcome.next.inj h
  have hkeep := runWhileBusy_keeps (P := fun t => N t ∧ t.host = s.host ∧ s.blk.InCondition t.blk) ?_
    s.env.tail (s.accepted i) ⟨hN, rfl, .acceptCommand hi s.blk⟩
  · exact hkeep.2
  · rintro t hb ⟨hn, hhost, hblk⟩
    obtain ⟨hr, hn'⟩ := htick t hb hn
    refine ⟨hn', ?_⟩
    rw [tick_waiting (hhost ▸ hw) hb hr]
    exact ⟨hhost, hblk.sequencer _ _ _⟩

/-- A command other than NOP, answered to its end, takes its issue cycle and one cycle an answer (R209). -/
theorem exec_cycle (hi : i ≠ .nop) (hready : s.ready = true) (he : s.env = e0 :: (es ++ rest))
    (ha : answered (unrolled i) es = true) (h : exec i s = .next t) : t.cycle = s.cycle + 1 + es.length := by
  rw [exec_ready i hready, he, List.tail_cons] at h
  obtain rfl := Host.Outcome.next.inj h
  have hrem : (s.accepted i).blk.remaining = unrolled i := remaining_acceptCommand hi s.blk
  exact (runWhileBusy_answered es rest (s.accepted i) (busy_acceptCommand hi s.blk) (onTrack_acceptCommand hi s.blk)
    (by simp [State.accepted, he]) (hrem ▸ ha)).2.2

/-- BEGIN, START and STOP answered to their end, under a waiting host: the lines and the events are those of the
pseudocode, the sequencer is idle and the rest of the block is as before (R142, R144, R146, R210). -/
theorem exec_condition (hi : i = .begin ∨ i = .start ∨ i = .stop) (hready : s.ready = true)
    (hw : s.host.waiting = true) (he : s.env = e0 :: (es ++ rest)) (ha : answered (unrolled i) es = true) :
    exec i s = .next (s.afterCondition i es rest) := by
  have hnop := ne_nop_of_condition hi
  obtain ⟨hb, hr⟩ := ready_iff.1 hready
  rw [envNow_cons s e0 _ he] at hr
  obtain ⟨t, ht, hidle, henv, hev, hscl, hsda, -⟩ := exec_meets_operation i hb hr he ha
  obtain ⟨hhost, hblk⟩ := exec_inCondition hi hready hw (onCourse_accepted hnop he ha) (fun _ => onCourse_tick) ht
  have hcycle := exec_cycle hnop hready he ha ht
  have hend : t.blk = s.blk.withLines (s.blk.operationOn i es) := hblk.eq_withLines hidle hscl hsda
  rw [ht]
  exact congrArg _ (State.eq_afterCommand hend henv hhost hcycle hev)

/-- After a finished condition the block is ready for the next command. -/
theorem ready_afterCondition (hr : e0.rst = false) : (s.afterCondition i es (e0 :: rest)).ready = true :=
  ready_iff.2 ⟨rfl, hr⟩

end Conditions

section Events

variable {es : List EnvCycle} (b : Block)

/-- A clock raise answered to its end polls once for each answer, and all polls but the last read low (R126). -/
theorem pollCounts_sclPoll (k : Nat) (ha : answered [.sclPoll] es = true) :
    pollCounts k [.sclPoll] es = [k + (es.length - 1)] := by
  induction es generalizing k with
  | nil => cases ha
  | cons e es ih =>
    cases hlevel : e.sclLevel with
    | true =>
      cases es with
      | nil => simp [pollCounts, MicroOp.completes, hlevel]
      | cons => simp [answered, MicroOp.completes, hlevel] at ha
    | false =>
      have ha' : answered [.sclPoll] es = true := by
        simp only [answered, MicroOp.completes, hlevel, Bool.and_eq_true] at ha
        exact ha.2
      cases es with
      | nil => cases ha'
      | cons e' es =>
        have hstep : pollCounts k [.sclPoll] (e :: e' :: es) = pollCounts (k + 1) [.sclPoll] (e' :: es) := by
          simp [pollCounts, MicroOp.completes, hlevel]
        rw [hstep, ih (k + 1) ha']
        simp only [List.length_cons, Nat.add_sub_cancel]
        rw [Nat.add_assoc, Nat.add_comm 1]

/-- BEGIN's two releases take one answer each, and its polls the others (R142). -/
theorem pollCounts_begin (ha : answered (unrolled .begin) es = true) :
    pollCounts 0 (unrolled .begin) es = [es.length - 3] := by
  match es, ha with
  | [_], ha => simp [unrolled, beginProgram, answered, MicroOp.completes] at ha
  | e1 :: e2 :: es, ha =>
    have hpoll : answered [.sclPoll] es = true := by
      simp only [unrolled, beginProgram, answered, MicroOp.completes, if_true, Bool.and_eq_true] at ha
      exact ha.2.2
    exact (pollCounts_sclPoll 0 hpoll).trans (by simp)

/-- BEGIN's events (R142). -/
theorem operationOn_begin_events (ha : answered (unrolled .begin) es = true) :
    (b.operationOn .begin es).events = .drive .data .released :: raiseEvents (es.length - 3) := by
  rw [Block.operationOn, pollCounts_begin ha]
  rfl

/-- START's events (R144). -/
theorem operationOn_start_events :
    (b.operationOn .start es).events =
      ([.drive .data .released, .waitBegin, .waitEnd] : List Event)
        ++ raiseEvents ((pollCounts 0 (unrolled .start) es).headD 0)
        ++ ([.waitBegin, .waitEnd, .drive .data .drivenLow, .waitBegin, .waitEnd,
              .drive .clock .drivenLow, .waitBegin, .waitEnd] : List Event) := by
  simp [Block.operationOn, Block.runOperation, opProgram, Prim.run, Block.opStart]

/-- STOP's events (R146). -/
theorem operationOn_stop_events :
    (b.operationOn .stop es).events =
      ([.drive .clock .drivenLow, .waitBegin, .waitEnd, .drive .data .drivenLow, .waitBegin, .waitEnd] : List Event)
        ++ raiseEvents ((pollCounts 0 (unrolled .stop) es).headD 0)
        ++ ([.waitBegin, .waitEnd, .drive .data .released, .waitBegin, .waitEnd] : List Event) := by
  simp [Block.operationOn, Block.runOperation, opProgram, Prim.run, Block.opStart]

/-- A clock raise makes no Data sample (R126). -/
theorem sampleSda_notMem_raiseEvents (k : Nat) (v : Bool) : Event.sampleSda v ∉ raiseEvents k := by
  simp [raiseEvents, List.mem_replicate]

/-- Of a clock raise, what tells drives from samples keeps the release alone (R126). -/
theorem filter_raiseEvents {p : Event → Bool} (hp : ∀ v, p (.sampleScl v) = false)
    (hd : p (.drive .clock .released) = true) (k : Nat) : (raiseEvents k).filter p = [.drive .clock .released] := by
  simp [raiseEvents, hp, hd]

end Events

/-- Settles O22: BEGIN answered to its end makes its pseudocode, whose polls are the answers but those to the two
releases. -/
theorem beginCompletes : Obligations.BeginCompletes := by
  unfold Obligations.BeginCompletes
  intro s e0 es rest hready hw he ha
  rw [exec_condition (.inl rfl) hready hw he ha, State.afterCondition, operationOn_begin_events _ ha]
  rfl

/-- Settles O23: START answered to its end makes its pseudocode. -/
theorem startCompletes : Obligations.StartCompletes := by
  unfold Obligations.StartCompletes
  intro s e0 es rest hready hw he ha
  rw [exec_condition (.inr (.inl rfl)) hready hw he ha, State.afterCondition, operationOn_start_events]
  rfl

/-- Settles O24: STOP answered to its end makes its pseudocode. -/
theorem stopCompletes : Obligations.StopCompletes := by
  unfold Obligations.StopCompletes
  intro s e0 es rest hready hw he ha
  rw [exec_condition (.inr (.inr rfl)) hready hw he ha, State.afterCondition, operationOn_stop_events]
  rfl

/-- Settles O27: NOP passes a cycle; the others change the lines and the sequencer position alone. -/
theorem conditionCommandsFrame : Obligations.ConditionCommandsFrame := by
  unfold Obligations.ConditionCommandsFrame
  intro i s hi hready hr hw
  rcases hi with rfl | hi
  · obtain ⟨hb, hrst⟩ := ready_iff.1 hready
    refine ⟨_, exec_eq_runCommand .nop s, ?_⟩
    rw [acceptCommand, runCommand_nop hb hrst]
    exact ⟨rfl, rfl, rfl, rfl, rfl, rfl, rfl, fun _ => rfl⟩
  · have hacc : (s.accepted i).noReset = true := noReset_of_suffix hr (List.tail_suffix _)
    obtain ⟨hhost, hblk⟩ :=
      exec_inCondition hi hready hw hacc (fun _ _ => noReset_tick) (exec_eq_runCommand i s)
    refine ⟨_, exec_eq_runCommand i s, ?_⟩
    obtain ⟨hsh, htx, hrx, hack, hpol, herr⟩ := hblk.frame
    exact ⟨hsh, htx, hrx, hack, hpol, herr, hhost, fun h => absurd h (ne_nop_of_condition hi)⟩

/-- Settles O42: the lines and the events of both commands are those of their pseudocode, and STOP's, which releases
both lines, give the block back. -/
theorem startThenStopIsIdleToIdle : Obligations.StartThenStopIsIdleToIdle := by
  unfold Obligations.StartThenStopIsIdleToIdle
  intro s e0 e1 es es' rest hready hw hp hscl hsda he hr ha ha'
  have hstart := exec_condition (.inr (.inl rfl)) hready hw he ha
  have hstop := exec_condition (.inr (.inr rfl))
    (ready_afterCondition (s := s) (i := .start) (es := es) (rest := es' ++ rest) hr) hw rfl ha'
  refine ⟨_, _, _, hstart, hstop, ?_, rfl, List.append_assoc _ _ _, fun v => ?_, ?_⟩
  · exact (withLines_withLines _ _ _).trans (withLines_eq_self (ready_iff.1 hready).1 hp hscl hsda)
  · simp [operationOn_start_events, operationOn_stop_events, sampleSda_notMem_raiseEvents]
  · simp [operationOn_start_events, operationOn_stop_events, filter_raiseEvents]

/-- Settles O43: the second BEGIN, like the first, leaves both lines released and nothing else changed. -/
theorem beginIsIdempotent : Obligations.BeginIsIdempotent := by
  unfold Obligations.BeginIsIdempotent
  intro s e0 e1 es es' rest hready hw he hr ha ha'
  have hfirst := exec_condition (.inl rfl) hready hw he ha
  have hsecond := exec_condition (.inl rfl)
    (ready_afterCondition (s := s) (i := .begin) (es := es) (rest := es' ++ rest) hr) hw rfl ha'
  refine ⟨_, _, hfirst, hsecond, withLines_withLines _ _ _, rfl, rfl, rfl, es'.length - 3, ?_⟩
  rw [← operationOn_begin_events _ ha']
  rfl

/-- Settles O21: an idle block accepts NOP and loads nothing; a busy one rejects it like any command. -/
theorem nopCompletes : Obligations.NopCompletes := by
  unfold Obligations.NopCompletes
  refine ⟨fun s hready => ?_, rfl, fun s hb hr => ⟨_, exec_eq_runCommand .nop s, ?_⟩⟩
  · obtain ⟨hb, hr⟩ := ready_iff.1 hready
    rw [exec_eq_runCommand, acceptCommand, runCommand_nop hb hr]
  · rw [runCommand_busy _ _ hb]
    simp [issueCycle, issueBlock, hb, hr]

/-- Settles O34, by counting; READ's bit A is in no micro-operation's count. -/
theorem microOperationCounts : Obligations.MicroOperationCounts := by
  unfold Obligations.MicroOperationCounts
  refine ⟨by decide, by decide, by decide, by decide, by decide, fun a => ?_⟩
  cases a <;> decide

end Sys2Proof.Machine

/-! PROOFS. The shifter (R24, R165): what eight samples make of it, and that in WRITE it holds the bits still to
send, the next one at the top (R160, R161). -/

namespace Sys2Proof.Machine

section Shifter

/-- The shifter doubles, takes the bit in and keeps eight bits (R165). -/
theorem toNat_shiftIn (v : Byte) (s : Bool) : (shiftIn v s).toNat = (2 * v.toNat + s.toNat) % 256 := by
  have h : (shiftIn v s).toNat = 2 * (v.extractLsb' 0 7).toNat + s.toNat := toNat_addressByte _ s
  have hs := s.toNat_le
  rw [h, BitVec.extractLsb'_toNat]
  omega

/-- Bit 0 of the shifter is the bit that entered, each other bit the one below it (R24, R165). -/
theorem getLsbD_shiftIn (v : Byte) (s : Bool) {k : Nat} (hk : k < 8) :
    (shiftIn v s).getLsbD k = if k = 0 then s else v.getLsbD (k - 1) := by
  rw [shiftIn, BitVec.getLsbD_append]
  cases k with
  | zero => simp
  | succ k => simp [show k < 7 by omega]

/-- After samples were shifted in, bit `k` is the one that came `k` before the last (R165). -/
theorem getElem?_of_foldl_shiftIn (l : List Bool) (v : Byte) {k : Nat} (hk : k < 8) (hl : k < l.length) :
    l[l.length - 1 - k]? = some ((l.foldl shiftIn v).getLsbD k) := by
  induction l using List.reverseRecOn generalizing k with
  | nil => exact absurd hl (Nat.not_lt_zero k)
  | append_singleton l s ih =>
    rw [List.foldl_append, List.foldl_cons, List.foldl_nil, getLsbD_shiftIn _ _ hk]
    cases k with
    | zero => simp
    | succ k =>
      have hl' : k < l.length := by simpa using hl
      have hidx : (l ++ [s]).length - 1 - (k + 1) = l.length - 1 - k := by simp; omega
      rw [hidx, List.getElem?_append_left (by omega), ih (by omega) hl']
      rfl

end Shifter

/-- Settles O35: each step doubles the value modulo 256, so eight of them leave nothing of the start value. -/
theorem shifterAssemblesByte : Obligations.ShifterAssemblesByte := by
  unfold Obligations.ShifterAssemblesByte
  have hle : ∀ s : Bool, s.toNat ≤ 1 := Bool.toNat_le
  refine ⟨fun v s => ?_, fun v s1 s2 s3 s4 s5 s6 s7 s8 => ?_⟩
  · have hs := hle s
    rw [toNat_shiftIn]
    omega
  · have h1 := hle s1; have h2 := hle s2; have h3 := hle s3; have h4 := hle s4
    have h5 := hle s5; have h6 := hle s6; have h7 := hle s7; have h8 := hle s8
    simp only [List.foldl_cons, List.foldl_nil, toNat_shiftIn]
    omega

section Running

variable {b : Block} {scl sda dly : Bool}

/-- A block that is busy after the sequencer's work was busy before it, with the same command (R30, R31). -/
theorem op_of_sequencer_busy (h : (sequencer b scl sda dly).busy = true) :
    b.busy = true ∧ (sequencer b scl sda dly).op = b.op := by
  rcases sequencer_cases b scl sda dly with ⟨-, hs⟩ | ⟨u, -, -, hs⟩ | ⟨u, hu, -, hs⟩ <;> rw [hs] at h ⊢
  · exact ⟨h, rfl⟩
  · exact ⟨h, rfl⟩
  · rcases advance_cases (u.update b sda) u with hadv | ⟨k, hadv⟩ <;> rw [hadv] at h ⊢
    · cases h
    · exact ⟨busy_of_current b hu, update_op b sda u⟩

end Running

section Sends

variable {b : Block} {v : Byte} {u : MicroOp}

/-- Before its SHIFTs are over, WRITE of `v` has the bits not yet sent left-aligned in the shifter, and from SDA_BIT to
SHIFT the bit being sent on Data (R24, R160, R161). -/
structure Block.Sends (b : Block) (v : Byte) : Prop where
  shreg : b.ustep.toNat < 7 → b.shreg = v <<< b.bitcnt.toNat
  sdaDrv : 2 ≤ b.ustep.toNat → b.ustep.toNat ≤ 6 → b.sdaDrv = driveForBit (v.getMsbD b.bitcnt.toNat)

/-- `sendsByte` says this of a running WRITE and nothing of another block. -/
theorem sendsByte_iff : b.sendsByte v = true ↔ (b.busy = true → b.op = 4#3 → b.Sends v) := by
  simp only [Block.sendsByte, Bool.or_eq_true, Bool.and_eq_true, Bool.not_eq_true', Bool.and_eq_false_iff,
    decide_eq_true_eq, decide_eq_false_iff_not, beq_iff_eq, beq_eq_false_iff_ne]
  constructor
  · intro h hb ho
    obtain ⟨hsh, hsda⟩ := h.resolve_left (by simp [hb, ho])
    exact ⟨fun hk => hsh.resolve_left (by omega), fun h2 h6 => hsda.resolve_left (by omega)⟩
  · intro h
    by_cases hrun : b.busy = true ∧ b.op = 4#3
    · obtain ⟨hsh, hsda⟩ := h hrun.1 hrun.2
      exact .inr ⟨or_iff_not_imp_left.2 fun hk => hsh (by omega),
        or_iff_not_imp_left.2 fun hk => hsda (by omega) (by omega)⟩
    · exact .inl (by simpa [or_iff_not_imp_left] using hrun)

/-- A micro-operation that ends no round of a bit loop leads to the next index, if the command goes on (R203). -/
theorem advance_next (hu : ¬(u = .shift ∨ u = .bitSample)) (hb : (b.advance u).busy = true) :
    b.advance u = { b with ustep := b.ustep + 1#4 } := by
  have hnext : b.advance u = if b.atLast then b.finish else { b with ustep := b.ustep + 1#4 } := by
    cases u with
    | shift => exact absurd (.inl rfl) hu
    | bitSample => exact absurd (.inr rfl) hu
    | _ => rfl
  rw [hnext] at hb ⊢
  split at hb
  · cases hb
  · rename_i hlast
    exact if_neg hlast

/-- Only SHIFT and BIT_SAMPLE move the shifter (R24, R206). -/
theorem update_shreg (hu : ¬(u = .shift ∨ u = .bitSample)) (sda : Bool) : (u.update b sda).shreg = b.shreg := by
  cases u with
  | shift => exact absurd (.inl rfl) hu
  | bitSample => exact absurd (.inr rfl) hu
  | _ => rfl

/-- The top bit of the left-aligned unsent bits is the next bit to send (R24, R160). -/
theorem nextBit_of_sends (h : b.Sends v) (hk : b.ustep.toNat < 7) (hn : b.bitcnt.toNat < 8) :
    b.nextBit = v.getMsbD b.bitcnt.toNat := by
  rw [Block.nextBit, h.shreg hk, BitVec.getLsbD_shiftLeft, BitVec.getMsbD]
  simp [hn, show ¬7 < b.bitcnt.toNat by omega]

/-- From SDA_BIT to SHIFT nothing else of WRITE drives Data (R202). -/
theorem sdaDrv_update_write (ho : b.op = 4#3) (hc : b.current = some u) (h1 : 1 ≤ b.ustep.toNat)
    (h5 : b.ustep.toNat ≤ 5) (sda : Bool) :
    (u.update b sda).sdaDrv = if b.ustep = 1#4 then driveForBit b.nextBit else b.sdaDrv := by
  have key : ∀ k : BitVec 4, 1 ≤ k.toNat → k.toNat ≤ 5 →
      writeProgram[k.toNat]? ∈ if k = 1#4 then [some .sdaBit] else [some .sclRel, some .sclPoll, some .wait] := by
    decide
  have hpos : writeProgram[b.ustep.toNat]? = some u := by
    have hpos := (current_eq_some.1 hc).2
    rwa [ho] at hpos
  have hmem := hpos ▸ key b.ustep h1 h5
  by_cases h : b.ustep = 1#4
  · rw [if_pos h] at hmem ⊢
    obtain rfl : u = .sdaBit := by simpa using hmem
    rfl
  · rw [if_neg h] at hmem ⊢
    have hkeep : u = .sclRel ∨ u = .sclPoll ∨ u = .wait := by simpa using hmem
    rcases hkeep with rfl | rfl | rfl <;> rfl

/-- A SHIFT leaves one bit less to send, and leads to a position that asks nothing of Data (R24, R207). -/
theorem sends_shift (h : b.Sends v) (hk : b.ustep.toNat < 7) (hn : b.bitcnt.toNat < 8) :
    ((b.shiftBit false).branch 0#4).Sends v := by
  have hnext : (b.bitcnt + 1#4).toNat = b.bitcnt.toNat + 1 := by bv_omega
  constructor
  · intro _
    show shiftIn b.shreg false = v <<< (b.bitcnt + 1#4).toNat
    rw [shiftIn_false, h.shreg hk, hnext, BitVec.shiftLeft_add]
  · intro h2 h6
    rw [branch_ustep] at h2 h6
    split at h2
    · rename_i h8
      rw [if_pos h8] at h6
      exact absurd h6 (by decide)
    · exact absurd h2 (by decide)

/-- In WRITE every completed micro-operation keeps the unsent bits in the shifter and the present one on Data. -/
theorem sends_done (h : b.Sends v) (ho : b.op = 4#3) (ht : b.onTrack) (hc : b.current = some u) (sda : Bool)
    (hb : ((u.update b sda).advance u).busy = true) : ((u.update b sda).advance u).Sends v := by
  obtain ⟨hlen, hbit⟩ := ht
  by_cases hu : u = .shift ∨ u = .bitSample
  · have hk : b.ustep = 6#4 := (position_of_counted hc hu).2
    obtain rfl : u = .shift := by
      have hpos := (current_eq_some.1 hc).2
      rw [ho, hk] at hpos
      exact (Option.some.inj hpos).symm
    exact sends_shift h (by simp [hk]) (hbit.resolve_left (by simp [hk]))
  · have hk : (b.ustep + 1#4).toNat = b.ustep.toNat + 1 := by
      rw [ho] at hlen
      have : b.ustep.toNat < 15 := hlen
      bv_omega
    rw [advance_next hu hb]
    constructor
    · intro h7
      simp only [update_ustep, hk] at h7
      simp only [update_shreg hu, update_bitcnt sda hu]
      exact h.shreg (by omega)
    · intro h2 h6
      simp only [update_ustep, hk] at h2 h6
      simp only [update_bitcnt sda hu, sdaDrv_update_write ho hc (by omega) (by omega)]
      split
      · rw [nextBit_of_sends h (by omega) (hbit.resolve_left (by omega))]
      · rename_i h1
        exact h.sdaDrv (by bv_omega) (by omega)

end Sends

/-- Settles O20: acceptance captures TXDATA; then a cycle holds, or completes one micro-operation of WRITE; what the
host writes meanwhile is not looked at. -/
theorem writeDrivesOperandBits : Obligations.WriteDrivesOperandBits := by
  unfold Obligations.WriteDrivesOperandBits
  refine ⟨fun b i hr hb hw ha hv => ?_, fun b i v hr hb hp hs => ?_⟩
  · have hacc : blockStep b i = acceptCommand .write b := by
      rw [blockStep_write b i hr hw, sequencer_idle _ _ _ _ hb, ha, hv]
      exact commandIssue_legal b b _ hb (decodeCommand_encode .write)
    rw [hacc, sendsByte_iff]
    intro _ _
    exact ⟨fun _ => (BitVec.shiftLeft_zero _).symm, fun h2 => absurd h2 (Nat.not_succ_le_zero 1)⟩
  · obtain ⟨tx, ce, hstep⟩ := blockStep_busy b i hr hb
    suffices hseq : (sequencer b i.sclLevel i.sdaLevel i.dlyDone).sendsByte v = true by
      rw [hstep]
      exact hseq
    rw [sendsByte_iff] at hs ⊢
    intro hb' ho'
    have ho : b.op = 4#3 := (op_of_sequencer_busy hb').2.symm.trans ho'
    rcases sequencer_cases b i.sclLevel i.sdaLevel i.dlyDone with ⟨-, h⟩ | ⟨u, -, -, h⟩ | ⟨u, hu, -, h⟩ <;>
      rw [h] at hb' ⊢
    · exact hs hb ho
    · exact hs hb ho
    · exact sends_done (hs hb ho) ho (onTrack_of_positionOk hb hp) hu _ hb'

end Sys2Proof.Machine

/-! PROOFS. WRITE and READ as whole commands (R160, R164): what they leave alone while they run and after (R26 to
R29), and the block, the history and the byte they end with. -/

namespace Sys2Proof.Machine

section Frame

variable {b c : Block} {scl sda dly : Bool}

/-- LATCH_RX is READ's last micro-operation: with it the command has finished (R202, R203). -/
theorem finished_of_latchRx (hc : b.current = some .latchRx) : (sequencer b scl sda dly).busy = false := by
  obtain ⟨-, ho, hk⟩ := (current_latchRx_iff b).1 hc
  have hlast : b.atLast = true := by simp [Block.atLast, ho, hk, microProgram, readProgram]
  rw [sequencer_done b _ _ _ hc rfl]
  exact congrArg Block.busy (if_pos (c := (MicroOp.latchRx.update b sda).atLast = true) hlast)

/-- An idle sequencer is at the start: OP, USTEP and BITCNT are 0 (R37 (a), R205). -/
def Block.Parked (b : Block) : Prop := b.busy = false → b.op = 0#3 ∧ b.ustep = 0#4 ∧ b.bitcnt = 0#4

/-- The sequencer comes to rest at the start alone (R205). -/
theorem Block.Parked.sequencer (h : c.Parked) (scl sda dly : Bool) : (sequencer c scl sda dly).Parked := by
  intro hb
  rcases sequencer_cases c scl sda dly with ⟨-, hs⟩ | ⟨u, -, -, hs⟩ | ⟨u, hu, -, hs⟩ <;> rw [hs] at hb ⊢
  · exact h hb
  · exact h hb
  · rcases advance_cases (u.update c sda) u with hadv | ⟨k, hadv⟩ <;> rw [hadv] at hb ⊢
    · exact ⟨rfl, rfl, rfl⟩
    · exact absurd ((busy_of_current c hu).symm.trans ((update_busy c sda u).symm.trans hb)) Bool.noConfusion

/-- The block `c` is what has become of the block `b` since it accepted a command, in the course of the command or
after it, as far as the command's operand, results and flags and an idle sequencer's position go. -/
structure Block.Course (b c : Block) : Prop where
  txdata : c.txdata = b.txdata
  ackpol : c.ackpol = b.ackpol
  cmderr : c.cmderr = b.cmderr
  op : c.busy = true → c.op = b.op
  ack : b.op ≠ 4#3 → c.ack = b.ack
  rxdata : b.op ≠ 5#3 ∨ c.busy = true → c.rxdata = b.rxdata
  parked : c.Parked

/-- An accepted command has changed nothing yet (R204). -/
theorem Block.Course.refl (h : b.busy = true) : b.Course b :=
  ⟨rfl, rfl, rfl, fun _ => rfl, fun _ => rfl, fun _ => rfl, fun h' => absurd (h.symm.trans h') Bool.noConfusion⟩

/-- The sequencer loads ACK in WRITE alone, and RXDATA in READ alone, at its end (R27, R28). -/
theorem Block.Course.sequencer (h : b.Course c) (scl sda dly : Bool) : b.Course (sequencer c scl sda dly) where
  txdata := (sequencer_txdata ..).trans h.txdata
  ackpol := (sequencer_ackpol ..).trans h.ackpol
  cmderr := (sequencer_cmderr ..).trans h.cmderr
  op hb := (op_of_sequencer_busy hb).2.trans (h.op (op_of_sequencer_busy hb).1)
  ack ho := by
    have hno : c.current ≠ some .ackSample := fun hc => by
      obtain ⟨hb, hop, -⟩ := (current_ackSample_iff c).1 hc
      exact ho ((h.op hb).symm.trans hop)
    rw [sequencer_ack, if_neg hno, h.ack ho]
  rxdata hor := by
    have hno : c.current ≠ some .latchRx := fun hc => by
      obtain ⟨hb, hop, -⟩ := (current_latchRx_iff c).1 hc
      have hbusy := hor.resolve_left (not_not_intro ((h.op hb).symm.trans hop))
      exact absurd (hbusy.symm.trans (finished_of_latchRx hc)) Bool.noConfusion
    rw [sequencer_rxdata, if_neg hno]
    exact h.rxdata (hor.imp_right fun hb => (op_of_sequencer_busy hb).1)
  parked := h.parked.sequencer scl sda dly

end Frame

section Commands

variable {i : Instr} {s t : State} {e0 : EnvCycle} {es rest : List EnvCycle} {o : OpState} {ap : Bool}

/-- Under a waiting host a command keeps to its course, finished or in progress: every cycle is the sequencer's, and the
host stands still. That no reset comes while it runs is what `N` brings along. -/
theorem exec_course {N : State → Prop} (hi : i ≠ .nop) (hready : s.ready = true) (hw : s.host.waiting = true)
    (hN : N (s.accepted i)) (htick : ∀ t : State, t.blk.busy = true → N t → t.envNow.rst = false ∧ N (tick t))
    (h : exec i s = .next t) : t.host = s.host ∧ (acceptCommand i s.blk).Course t.blk := by
  rw [exec_ready i hready] at h
  obtain rfl := Host.Outcome.next.inj h
  have hkeep := runWhileBusy_keeps (P := fun t => N t ∧ t.host = s.host ∧ (acceptCommand i s.blk).Course t.blk) ?_
    s.env.tail (s.accepted i) ⟨hN, rfl, .refl (busy_acceptCommand hi s.blk)⟩
  · exact hkeep.2
  · rintro t hb ⟨hn, hhost, hblk⟩
    obtain ⟨hr, hn'⟩ := htick t hb hn
    refine ⟨hn', ?_⟩
    rw [tick_waiting (hhost ▸ hw) hb hr]
    exact ⟨hhost, hblk.sequencer _ _ _⟩

/-- Where the operation level starts when the block has accepted the command `i`, with the shifter as accumulator. -/
def Block.acceptedOp (b : Block) (i : Instr) (es : List EnvCycle) : OpState :=
  (b.opStart (pollCounts 0 (unrolled i) es) (dataSamples (unrolled i) es)).withAcc (acceptCommand i b).shreg

/-- The micro-operations of the command `i`, performed at the operation level on the answers `es` (R206, R210). -/
def Block.performed (b : Block) (i : Instr) (es : List EnvCycle) : OpState :=
  performAll (acceptCommand i b).ackpol (unrolled i) (b.acceptedOp i es)

/-- The idle block with the lines and the results of the operation-level run `o`, the accumulator in SHREG (R205). -/
def Block.withRun (b : Block) (o : OpState) : Block :=
  { b with sclDrv := o.scl, sdaDrv := o.sda, shreg := o.acc, rxdata := o.rxdata, ack := o.ack }.finish

/-- A finished command has the lines and the results of its run, and left the rest as acceptance made it. -/
theorem Block.Course.eq_withRun {b c : Block} (h : b.Course c) (hb : c.busy = false) (ha : c.Agrees ap o) :
    c = b.withRun o := by
  obtain ⟨hop, hk, hn⟩ := h.parked hb
  obtain ⟨hscl, hsda, hack, hsh, hrx, -⟩ := ha
  obtain ⟨htx, hpol, herr, -, -, -, -⟩ := h
  cases c
  simp_all [Block.withRun, Block.finish]

/-- A command other than NOP, answered to its end under a waiting host: the block has the lines and the results of its
micro-operations at the operation level, and the history their events (R209, R210). -/
theorem exec_answered (hi : i ≠ .nop) (hready : s.ready = true) (hw : s.host.waiting = true)
    (he : s.env = e0 :: (es ++ rest)) (ha : answered (unrolled i) es = true) :
    exec i s = .next (s.afterCommand ((acceptCommand i s.blk).withRun (s.blk.performed i es)) es rest
      (s.blk.performed i es).events) := by
  have hexec := exec_ready i hready
  obtain ⟨hhost, hcourse⟩ := exec_course hi hready hw (onCourse_accepted hi he ha) (fun _ => onCourse_tick) hexec
  have hcycle := exec_cycle hi hready he ha hexec
  have hbusy : (s.accepted i).blk.busy = true := busy_acceptCommand hi s.blk
  have htrack : (s.accepted i).blk.onTrack := onTrack_acceptCommand hi s.blk
  have hrem : (s.accepted i).blk.remaining = unrolled i := remaining_acceptCommand hi s.blk
  have htail : (s.accepted i).env = es ++ rest := by simp [State.accepted, he]
  obtain ⟨hidle, hrest, -⟩ := runWhileBusy_answered es rest _ hbusy htrack htail (hrem ▸ ha)
  have hend := runWhileBusy_tracks es _ _ 0 hbusy htrack htail (hrem ▸ ha) (hrem ▸ tracks_accepted hi s es)
  rw [hexec]
  rw [he, List.tail_cons] at hhost hcourse hcycle ⊢
  rw [hrem] at hend
  refine congrArg _ (State.eq_afterCommand (hcourse.eq_withRun hidle hend.agrees) hrest hhost hcycle ?_)
  rw [hend.events, pending_idle _ hidle, List.append_nil]
  rfl

end Commands

section Transfers

variable (b : Block) {s : State} {e0 : EnvCycle} {es rest : List EnvCycle}

/-- WRITE's run: its pseudocode on the one Data sample, and the shifter emptied by eight SHIFTs (R160, R161). -/
theorem performed_write {v : Bool} (hv : dataSamples (unrolled .write) es = [v]) :
    b.performed .write es = (b.runOperation .write (pollCounts 0 (unrolled .write) es) [v]).withAcc 0x00#8 := by
  have hempty : b.txdata <<< 8 = 0x00#8 := BitVec.shiftLeft_eq_zero le_rfl
  rw [← hv, ← hempty]
  exact performAll_write _ _ b.txdata

/-- READ's run: its pseudocode, which delivers what is in the shifter (R164). -/
theorem performed_read (a : Bool) :
    b.performed (.read a) es = (b.operationOn (.read a) es).withAcc (b.operationOn (.read a) es).rxdata :=
  performAll_read _ b.txdata a

/-- READ answered to its end under a waiting host, for both values of A (R164). -/
theorem exec_read_answered (a : Bool) (hready : s.ready = true) (hw : s.host.waiting = true)
    (he : s.env = e0 :: (es ++ rest)) (ha : answered (unrolled (.read a)) es = true) :
    exec (.read a) s = .next
      (s.afterCommand
        { s.blk with
          sclDrv := .drivenLow
          sdaDrv := .released
          shreg := (s.blk.operationOn (.read a) es).rxdata
          rxdata := (s.blk.operationOn (.read a) es).rxdata
          ackpol := a
          busy := false
          op := 0#3
          ustep := 0#4
          bitcnt := 0#4 }
        es rest (s.blk.operationOn (.read a) es).events) := by
  rw [exec_answered Instr.noConfusion hready hw he ha, performed_read]
  rfl

end Transfers

/-- Settles O25: eight SHIFTs empty the shifter, the one Data sample is the acknowledgment, and the rest is as the
pseudocode and acceptance leave it. -/
theorem writeCompletes : Obligations.WriteCompletes := by
  unfold Obligations.WriteCompletes
  intro s e0 es rest hready hw he ha
  obtain ⟨v, hv⟩ := List.length_eq_one_iff.1 (length_dataSamples ha)
  refine ⟨v, hv, ?_⟩
  rw [exec_answered Instr.noConfusion hready hw he ha, performed_write _ hv]
  rfl

/-- Settles O26: the byte is that of the eight Data samples, whose first one is shifted up to bit 7. -/
theorem readCompletes : Obligations.ReadCompletes := by
  unfold Obligations.ReadCompletes
  intro a s e0 es rest hready hw he ha
  have hlen : (dataSamples (unrolled (.read a)) es).length = 8 := length_dataSamples ha
  refine ⟨(s.blk.operationOn (.read a) es).rxdata, hlen, fun k hk => ?_, exec_read_answered a hready hw he ha⟩
  have hidx : (dataSamples (unrolled (.read a)) es).length - 1 - (7 - k) = k := by omega
  rw [rxdata_read s.blk ha, byteOfSamples, ← getElem?_of_foldl_shiftIn _ _ (by omega) (by omega), hidx]

/-- Settles O28: both keep to their course, finished or in progress, in which WRITE never loads RXDATA and READ never
ACK. -/
theorem transferCommandsFrame : Obligations.TransferCommandsFrame := by
  unfold Obligations.TransferCommandsFrame
  intro s hready hr hw
  have hcourse : ∀ i, i ≠ .nop →
      ∃ t, exec i s = .next t ∧ t.host = s.host ∧ (acceptCommand i s.blk).Course t.blk :=
    fun i hi => ⟨_, exec_ready i hready, exec_course (N := fun t => t.noReset = true) hi hready hw
      (noReset_of_suffix hr (List.tail_suffix _)) (fun _ _ => noReset_tick) (exec_ready i hready)⟩
  refine ⟨?_, fun a => ?_⟩
  · obtain ⟨t, ht, hhost, h⟩ := hcourse .write Instr.noConfusion
    have hwrite : (acceptCommand .write s.blk).op ≠ 5#3 := show 4#3 ≠ 5#3 by decide
    exact ⟨t, ht, h.txdata, h.rxdata (.inl hwrite), h.ackpol, h.cmderr, hhost⟩
  · obtain ⟨t, ht, hhost, h⟩ := hcourse (.read a) Instr.noConfusion
    have hread : (acceptCommand (.read a) s.blk).op ≠ 4#3 := show 5#3 ≠ 4#3 by decide
    exact ⟨t, ht, h.txdata, h.ack hread, h.ackpol, h.cmderr, hhost, fun hb => h.rxdata (.inr hb)⟩

end Sys2Proof.Machine

/-! PROOFS. READ with ACK and READ with NACK side by side (R166, R167): two blocks alike but for the policy and
Data's drive stay so, and the pseudocode drives Data by A once. -/

namespace Sys2Proof.Machine

section Policy

variable {b c : Block}

/-- The block `c` is `b` but for the acknowledgment policy and what is driven on Data (R166). -/
def Block.UpToPolicy (b c : Block) : Prop := ∃ ap d, c = { b with ackpol := ap, sdaDrv := d }

/-- No update but what it drives on Data depends on ACKPOL or on Data's drive (R206). -/
theorem Block.UpToPolicy.update (h : b.UpToPolicy c) (u : MicroOp) (sda : Bool) :
    (u.update b sda).UpToPolicy (u.update c sda) := by
  obtain ⟨ap, d, rfl⟩ := h
  cases u <;> exact ⟨ap, _, rfl⟩

/-- An advance looks at the position alone (R203, R207). -/
theorem Block.UpToPolicy.advance (h : b.UpToPolicy c) (u : MicroOp) : (b.advance u).UpToPolicy (c.advance u) := by
  obtain ⟨ap, d, rfl⟩ := h
  have hlast : ({ b with ackpol := ap, sdaDrv := d } : Block).atLast = b.atLast := rfl
  cases u with
  | shift => exact ⟨ap, d, rfl⟩
  | bitSample => exact ⟨ap, d, rfl⟩
  | _ =>
    simp only [Block.advance, hlast]
    split <;> exact ⟨ap, d, rfl⟩

theorem Block.UpToPolicy.current (h : b.UpToPolicy c) : c.current = b.current := by
  obtain ⟨ap, d, rfl⟩ := h
  rfl

theorem Block.UpToPolicy.busy (h : b.UpToPolicy c) : c.busy = b.busy := by
  obtain ⟨ap, d, rfl⟩ := h
  rfl

/-- Two blocks alike but for the policy do the same work in a cycle (R167). -/
theorem Block.UpToPolicy.sequencer (h : b.UpToPolicy c) (scl sda dly : Bool) :
    (sequencer b scl sda dly).UpToPolicy (sequencer c scl sda dly) := by
  rcases sequencer_cases b scl sda dly with ⟨hu, hs⟩ | ⟨u, hu, hc, hs⟩ | ⟨u, hu, hc, hs⟩
  · rw [hs]
    simpa [Machine.sequencer, h.current, hu] using h
  · rw [hs, sequencer_hold c _ _ _ (h.current.trans hu) hc]
    exact h
  · rw [hs, sequencer_done c _ _ _ (h.current.trans hu) hc]
    exact (h.update u sda).advance u

end Policy

/-- Two machines at one place of a script without reset, their blocks alike but for the policy, their hosts waiting. -/
structure State.UpToPolicy (s s' : State) : Prop where
  blk : s.blk.UpToPolicy s'.blk
  env : s'.env = s.env
  cycle : s'.cycle = s.cycle
  waiting : s.host.waiting = true
  waiting' : s'.host.waiting = true
  noReset : s.noReset = true

section Runs

variable {s s' : State}

/-- A cycle of two such machines in the course of a command (R167). -/
theorem State.UpToPolicy.tick (h : s.UpToPolicy s') (hb : s.blk.busy = true) : (tick s).UpToPolicy (tick s') := by
  have hnow : s'.envNow = s.envNow := by simp [State.envNow, h.env, h.cycle]
  have hr := rst_of_noReset h.noReset
  rw [tick_waiting h.waiting hb hr, tick_waiting h.waiting' (h.blk.busy.trans hb) (hnow ▸ hr), hnow, h.env, h.cycle]
  exact ⟨h.blk.sequencer _ _ _, rfl, rfl, h.waiting, h.waiting', noReset_of_suffix h.noReset (List.tail_suffix _)⟩

/-- Two such machines run alike as far as the script reaches (R167). -/
theorem runWhileBusy_upToPolicy (es : List EnvCycle) (h : s.UpToPolicy s') :
    (runWhileBusy es s).UpToPolicy (runWhileBusy es s') := by
  induction es generalizing s s' with
  | nil => exact h
  | cons e es ih =>
    cases hb : s.blk.busy with
    | false => rwa [runWhileBusy_idle _ hb, runWhileBusy_idle _ (h.blk.busy.trans hb)]
    | true =>
      rw [runWhileBusy_cons e es hb, runWhileBusy_cons e es (h.blk.busy.trans hb)]
      exact ih (h.tick hb)

end Runs

/-- Where READ's pseudocode stands before it drives its acknowledgment, whatever A is (R164). -/
def Block.beforeAck (b : Block) (es : List EnvCycle) : OpState :=
  opRun ([.sdaRelease] ++ (List.replicate 8 readBitPrims).flatten ++ [.sclLow])
    (b.opStart (pollCounts 0 (unrolled (.read true)) es) (dataSamples (unrolled (.read true)) es))

/-- The events of READ after it has driven its acknowledgment, `k` polls of the ninth clock having read low. -/
def afterAckEvents (k : Nat) : List Event :=
  [.waitBegin, .waitEnd] ++ raiseEvents k ++ [.waitBegin, .waitEnd, .drive .clock .drivenLow, .drive .data .released]

/-- A decides one event of READ, what is driven on Data before the ninth clock (R164, R166). -/
theorem events_read (b : Block) (a : Bool) (es : List EnvCycle) :
    (b.operationOn (.read a) es).events =
      (b.beforeAck es).events ++ [.drive .data (driveForBit (!a))]
        ++ afterAckEvents ((b.beforeAck es).polls.headD 0) := by
  have hrun : b.operationOn (.read a) es =
      opRun [.sdaSet (!a), .wait, .sclRaise, .wait, .sclLow, .sdaRelease, .deliver] (b.beforeAck es) := rfl
  rw [hrun]
  simp [Prim.run, afterAckEvents]

/-- Settles O40: the policy decides what is driven on Data and nothing else, at every point of the run; finished, the
run is the pseudocode's, which drives Data by A once, before the ninth clock. -/
theorem readByteIgnoresPolicy : Obligations.ReadByteIgnoresPolicy := by
  unfold Obligations.ReadByteIgnoresPolicy
  intro s hready hr hw
  have hack := exec_ready (.read true) hready
  have hnack := exec_ready (.read false) hready
  have hstart : (s.accepted (.read true)).UpToPolicy (s.accepted (.read false)) :=
    ⟨⟨false, _, rfl⟩, rfl, rfl, hw, hw, noReset_of_suffix hr (List.tail_suffix _)⟩
  obtain ⟨⟨ap, d, hblk⟩, henv, -⟩ := runWhileBusy_upToPolicy s.env.tail hstart
  refine ⟨_, _, hack, hnack, by rw [hblk], by rw [hblk], by rw [hblk], by rw [hblk], by rw [hblk], henv.symm,
    fun hidle => ?_⟩
  obtain ⟨e0, es, -, he, ha⟩ := answered_of_exec Instr.noConfusion hready hr hnack hidle
  have hread : ∀ a t, exec (.read a) s = .next t →
      t.blk.sdaDrv = .released ∧ t.events = s.events ++ (s.blk.operationOn (.read a) es).events := by
    intro a t ht
    obtain rfl := Host.Outcome.next.inj (ht.symm.trans (exec_read_answered a hready hw he ha))
    exact ⟨rfl, rfl⟩
  obtain ⟨hsda1, hev1⟩ := hread true _ hack
  obtain ⟨hsda0, hev0⟩ := hread false _ hnack
  refine ⟨hsda1.trans hsda0.symm, s.events ++ (s.blk.beforeAck es).events,
    afterAckEvents ((s.blk.beforeAck es).polls.headD 0), ?_, ?_⟩
  · rw [hev1, events_read]
    simp [driveForBit]
  · rw [hev0, events_read]
    simp [driveForBit]

end Sys2Proof.Machine

/-! PROOFS. SCAN's loop as a function of the devices that answer (R181 to R183): one turn of it, what it stores and
counts, its candidates and their probe bytes. -/

namespace Sys2Proof.Machine

section Turn

/-- After a probe with acknowledgment `ack`, with `n` devices found before it, SCAN's loop is over early: a device was
found and `cap` are (R182). -/
def scanOver (ack : Bool) (cap n : Nat) : Bool := ack && decide (cap ≤ n + 1)

/-- SCAN's memory after the test of the probe of `a` with acknowledgment `ack` (R181, R185). -/
def ScanMemory.tested (m : ScanMemory) (ack : Bool) (buf cap a : Nat) : ScanMemory :=
  if ack then m.found buf cap a else m

variable (answers : DeviceAddress → Bool) (buf cap a : Nat) (as : List Nat) (m : ScanMemory)

@[simp] theorem tested_count (ack : Bool) : (m.tested ack buf cap a).count = m.count + ack.toNat := by
  cases ack <;> rfl

/-- One turn of SCAN's loop: the test, then the candidates that remain, unless the loop is over. -/
theorem scanLoop_cons {ack : Bool} (h : ack = answers (BitVec.ofNat 7 a)) :
    scanLoop answers buf cap (a :: as) m =
      if scanOver ack cap m.count then m.tested ack buf cap a
      else scanLoop answers buf cap as (m.tested ack buf cap a) := by
  subst h
  cases h : answers (BitVec.ofNat 7 a) with
  | false => simp [scanLoop, h, scanOver, ScanMemory.tested]
  | true => by_cases hcap : cap ≤ m.count + 1 <;> simp [scanLoop, h, scanOver, ScanMemory.tested, hcap]

/-- The host's test does to its program and to SCAN's memory what one turn of the loop does (R181, R182). -/
theorem next_scanTest {h : HostAgent} {prog : List HostOp} (hp : h.prog = .scanTest buf cap a :: prog) (r : Byte) :
    h.next r =
      { h with
        prog := (if scanOver h.lastAck cap h.scan.count then [] else scanFrom buf cap (a + 1)) ++ prog
        scan := h.scan.tested h.lastAck buf cap a } := by
  simp only [HostAgent.next, hp, HostAgent.scanTest]
  cases h.lastAck with
  | false => simp [scanOver, ScanMemory.tested]
  | true => by_cases hcap : cap ≤ h.scan.count + 1 <;> simp [scanOver, ScanMemory.tested, hcap]

theorem scanFrom_of_le {a : Nat} (h : a ≤ 119) : scanFrom buf cap a = [.scanProbe buf cap a] := if_pos h

theorem scanFrom_of_gt {a : Nat} (h : 119 < a) : scanFrom buf cap a = [] := if_neg (Nat.not_le.2 h)

end Turn

/-- Settles O50: the test and the loop's turn agree on whether the loop is over; if not, it is over all the same after
the last candidate. -/
theorem hostScanTestIsOneLoopTurn : Obligations.HostScanTestIsOneLoopTurn := by
  unfold Obligations.HostScanTestIsOneLoopTurn
  intro h buf cap a prog r answers hp h8 h119 hack
  have hcands : List.range' a (120 - a) = a :: List.range' (a + 1) (119 - a) := by
    rw [show 120 - a = 119 - a + 1 by omega, List.range'_succ]
  rw [hcands, scanLoop_cons answers buf cap a _ _ hack, next_scanTest buf cap a hp]
  cases hover : scanOver h.lastAck cap h.scan.count with
  | true => exact .inr ⟨rfl, rfl⟩
  | false =>
    rcases Nat.lt_or_eq_of_le h119 with hlt | rfl
    · exact .inl ⟨congrArg (· ++ prog) (scanFrom_of_le buf cap hlt), hlt, rfl⟩
    · exact .inr ⟨rfl, rfl⟩

section Stores

variable {m m' : ScanMemory} {buf cap : Nat}

/-- From `m` to `m'` the addresses `l` were stored in the cells of the array at `buf` from its `m.count`-th on, each
counted, and every other cell is as before (R181). -/
structure ScanMemory.Stored (m m' : ScanMemory) (buf : Nat) (l : List DeviceAddress) : Prop where
  count : m'.count = m.count + l.length
  read : ∀ c, HostMemory.read m'.cells c =
    if buf + m.count ≤ c ∧ c < buf + m.count + l.length then l[c - (buf + m.count)]? else HostMemory.read m.cells c

theorem ScanMemory.Stored.nil (m : ScanMemory) (buf : Nat) : m.Stored m buf [] where
  count := rfl
  read c := by rw [if_neg (by simp)]

/-- A device found while there is room is stored before those found later. -/
theorem ScanMemory.Stored.found {l : List DeviceAddress} {a : Nat} (hroom : m.count < cap)
    (h : (m.found buf cap a).Stored m' buf l) : m.Stored m' buf (BitVec.ofNat 7 a :: l) where
  count := by rw [h.count, found_count, List.length_cons]; omega
  read c := by
    rw [h.read c, found_count, found_read, List.length_cons]
    rcases Nat.lt_trichotomy c (buf + m.count) with hlt | rfl | hgt
    · rw [if_neg (by omega), if_neg (by omega), if_neg (by omega)]
    · rw [if_neg (by omega), if_pos ⟨hroom, rfl⟩, if_pos (by omega), Nat.sub_self, List.getElem?_cons_zero]
    · have hidx : c - (buf + m.count) = c - (buf + (m.count + 1)) + 1 := by omega
      rw [hidx, List.getElem?_cons_succ]
      exact ite_congr (propext (by omega)) (fun _ => rfl) fun _ => if_neg (by omega)

/-- The first `n` of the devices that answer among the candidates `as`. -/
def firstAnswers (answers : DeviceAddress → Bool) (n : Nat) (as : List Nat) : List DeviceAddress :=
  ((as.map (BitVec.ofNat 7)).filter answers).take n

variable {answers : DeviceAddress → Bool} {a : Nat}

theorem firstAnswers_cons_silent (h : answers (BitVec.ofNat 7 a) = false) (n : Nat) (as : List Nat) :
    firstAnswers answers n (a :: as) = firstAnswers answers n as := by
  simp [firstAnswers, h]

theorem firstAnswers_cons_answer (h : answers (BitVec.ofNat 7 a) = true) (n : Nat) (as : List Nat) :
    firstAnswers answers (n + 1) (a :: as) = BitVec.ofNat 7 a :: firstAnswers answers n as := by
  simp [firstAnswers, h]

/-- While there is room, SCAN's loop stores the first devices that answer, as many as there is room for, and no other
(R181, R182). -/
theorem scanLoop_stored (answers : DeviceAddress → Bool) (buf : Nat) (as : List Nat) (hroom : m.count < cap) :
    m.Stored (scanLoop answers buf cap as m) buf (firstAnswers answers (cap - m.count) as) := by
  induction as generalizing m with
  | nil => simpa [firstAnswers, scanLoop] using ScanMemory.Stored.nil m buf
  | cons a as ih =>
    rw [scanLoop_cons answers buf cap a as m rfl]
    cases hack : answers (BitVec.ofNat 7 a) with
    | false => rw [firstAnswers_cons_silent hack]; exact ih hroom
    | true =>
      obtain ⟨n, hn⟩ : ∃ n, cap - m.count = n + 1 := ⟨cap - m.count - 1, by omega⟩
      rw [hn, firstAnswers_cons_answer hack]
      refine ScanMemory.Stored.found (cap := cap) hroom ?_
      rcases Nat.eq_zero_or_pos n with rfl | hpos
      · have hover : scanOver true cap m.count = true := decide_eq_true (by omega)
        rw [hover]
        exact .nil _ buf
      · have hover : scanOver true cap m.count = false := decide_eq_false (by omega)
        have hrest : cap - (m.found buf cap a).count = n := by rw [found_count]; omega
        rw [hover, ← hrest]
        exact ih (m := m.found buf cap a) (by rw [found_count]; omega)

/-- What a whole SCAN stores, for a capacity of at least 1 (R182). -/
theorem scanResult_stored (answers : DeviceAddress → Bool) (buf : Nat) (m : ScanMemory) (hcap : 0 < cap) :
    m.start.Stored (scanResult answers buf cap m) buf (firstAnswers answers cap scanCandidates) :=
  scanLoop_stored (m := m.start) answers buf scanCandidates hcap

/-- With capacity 0 a found device is counted and no cell changes (D18). -/
theorem found_capacityZero (m : ScanMemory) (buf a : Nat) : m.found buf 0 a = { m with count := m.count + 1 } := rfl

/-- With capacity 0 the loop is over at the first device that answers, which it counts (D18). -/
theorem scanLoop_capacityZero (answers : DeviceAddress → Bool) (buf : Nat) (as : List Nat) (m : ScanMemory) :
    scanLoop answers buf 0 as m =
      { m with count := if (as.map (BitVec.ofNat 7)).any answers then m.count + 1 else m.count } := by
  induction as with
  | nil => rfl
  | cons a as ih =>
    rw [scanLoop_cons answers buf 0 a as m rfl]
    cases hack : answers (BitVec.ofNat 7 a) with
    | true => simp [scanOver, ScanMemory.tested, found_capacityZero, hack]
    | false => simpa [scanOver, ScanMemory.tested, hack] using ih

end Stores

/-- Settles O47: SCAN's memory after the loop is that after storing the first `cap` answering candidates from an empty
array on. -/
theorem scanStoresFirstAnswers : Obligations.ScanStoresFirstAnswers := by
  unfold Obligations.ScanStoresFirstAnswers
  intro answers buf cap m hcap
  have h := scanResult_stored answers buf m (of_decide_eq_true hcap)
  exact ⟨h.count.trans (Nat.zero_add _), h.read⟩

/-- Settles O48: the loop over the candidates with capacity 0, from count 0. -/
theorem scanOfCapacityZero : Obligations.ScanOfCapacityZero := by
  unfold Obligations.ScanOfCapacityZero
  intro answers buf m
  rw [scanResult, scanLoop_capacityZero]
  exact ⟨rfl, rfl⟩

section Candidates

/-- R183. -/
theorem scanCandidates_eq : scanCandidates = List.range' 8 112 := by decide

theorem lt_of_mem_scanCandidates {a : Nat} (h : a ∈ scanCandidates) : a < 128 := by
  rw [scanCandidates_eq, List.mem_range'_1] at h
  omega

/-- A 7-bit candidate shifted left by one loses no bit (R181). -/
theorem toNat_probeByte {a : Nat} (h : a < 128) : (probeByte a).toNat = 2 * a := by
  rw [probeByte, BitVec.toNat_ofNat, Nat.shiftLeft_eq]
  omega

/-- The probe's byte is the address byte of the write direction (R94, R181). -/
theorem probeByte_eq_addressByte {a : Nat} (h : a < 128) : probeByte a = addressByte (BitVec.ofNat 7 a) false := by
  have hself : (BitVec.ofNat 7 a).toNat = a := by rw [BitVec.toNat_ofNat]; exact Nat.mod_eq_of_lt h
  refine BitVec.eq_of_toNat_eq ?_
  rw [toNat_probeByte h, toNat_addressByte, hself]
  rfl

/-- Whatever devices answer, those SCAN stores are in ascending order (R183). -/
theorem firstAnswers_ascending (answers : DeviceAddress → Bool) (n : Nat) :
    (firstAnswers answers n scanCandidates).Pairwise (fun x y => x.toNat < y.toNat) := by
  have hcands : (scanCandidates.map (BitVec.ofNat 7)).Pairwise (fun x y => x.toNat < y.toNat) := by
    rw [List.pairwise_map]
    have hlt : scanCandidates.Pairwise (· < ·) := scanCandidates_eq ▸ List.pairwise_lt_range'
    refine hlt.imp_of_mem fun {x y} hx hy hxy => ?_
    rwa [BitVec.toNat_ofNat, BitVec.toNat_ofNat, Nat.mod_eq_of_lt (lt_of_mem_scanCandidates hx),
      Nat.mod_eq_of_lt (lt_of_mem_scanCandidates hy)]
  exact (hcands.filter _).take

end Candidates

/-- Settles O49: the candidates and their bytes as R183 lists them; the cells in use hold the first answering
candidates, which ascend as the candidates do. -/
theorem scanCandidatesAndProbeBytes : Obligations.ScanCandidatesAndProbeBytes := by
  unfold Obligations.ScanCandidatesAndProbeBytes
  refine ⟨scanCandidates_eq, ?_, fun a ha => probeByte_eq_addressByte (lt_of_mem_scanCandidates ha), rfl, rfl, ?_⟩
  · rw [List.map_congr_left fun a ha => toNat_probeByte (lt_of_mem_scanCandidates ha)]
    decide
  intro answers buf cap m j k hjk hk
  have hstored := scanResult_stored answers buf m (cap := cap) (by omega)
  have hlen : k < (firstAnswers answers cap scanCandidates).length := by
    have := hstored.count
    rw [start_count, Nat.zero_add] at this
    omega
  have hread : ∀ i (hi : i < (firstAnswers answers cap scanCandidates).length),
      HostMemory.read (scanResult answers buf cap m).cells (buf + i)
        = some ((firstAnswers answers cap scanCandidates)[i]) := by
    intro i hi
    rw [hstored.read, start_count, Nat.add_zero, if_pos (by omega), Nat.add_sub_cancel_left,
      List.getElem?_eq_getElem hi]
  exact ⟨_, _, hread j (hjk.trans hlen), hread k hlen,
    List.pairwise_iff_getElem.1 (firstAnswers_ascending answers cap) j k _ hlen hjk⟩

end Sys2Proof.Machine

/-! PROOFS. SCAN on the machine (R181 to R185): its first statement, the settle delay, one probe, and the whole run as
the loop of R181. -/

namespace Sys2Proof.Machine

/-- Settles O54: of the statements that touch SCAN's memory the first leaves the cells, and the test stores in the next
cell of the array while there is room. -/
theorem onlyScanStoresInHostMemory : Obligations.OnlyScanStoresInHostMemory := by
  unfold Obligations.OnlyScanStoresInHostMemory
  intro s c hne
  rw [tick_host] at hne ⊢
  rcases next_scan s.host (memRead s.blk s.envNow.sclLevel s.envNow.sdaLevel s.host.access.reg) with
    hs | ⟨_, _, _, -, hs⟩ | ⟨buf, cap, a, rest, hp, hack, hs⟩ <;> rw [hs] at hne ⊢
  · exact absurd rfl hne
  · exact absurd rfl hne
  · rw [found_read] at hne ⊢
    by_cases hcell : s.host.scan.count < cap ∧ c = buf + s.host.scan.count
    · exact ⟨buf, cap, a, rest, hp, hack, hcell.1, hcell.2, if_pos hcell⟩
    · exact absurd (if_neg hcell) hne

section Reaches

variable {s t u : State}

/-- Some number of steps brings the machine from `s` to `t`. -/
def State.Reaches (s t : State) : Prop := ∃ n, steps n s = .next t

theorem State.Reaches.refl (s : State) : s.Reaches s := ⟨0, rfl⟩

theorem State.Reaches.of_step (h : step s = .next t) : s.Reaches t := ⟨1, steps_one h⟩

theorem State.Reaches.trans (h : s.Reaches t) (h' : t.Reaches u) : s.Reaches u := by
  obtain ⟨m, hm⟩ := h
  obtain ⟨n, hn⟩ := h'
  exact ⟨m + n, (steps_add n hm).trans hn⟩

end Reaches

section Statements

variable {s : State} {prog : List HostOp}

/-- The block is idle, and no reset is scripted. -/
structure State.Idle (s : State) : Prop where
  busy : s.blk.busy = false
  noReset : s.noReset = true

theorem State.Idle.rst (hs : s.Idle) : s.envNow.rst = false := rst_of_noReset hs.noReset

/-- `s` after `n` cycles in which the block stood still and the host became `h`. -/
def State.passed (s : State) (n : Nat) (h : HostAgent) : State :=
  { s with env := s.env.drop n, host := h, cycle := s.cycle + n }

theorem passed_passed (s : State) (m n : Nat) (h h' : HostAgent) :
    (s.passed m h).passed n h' = s.passed (m + n) h' := by
  simp [State.passed, Nat.add_assoc]

theorem State.Idle.passed (hs : s.Idle) (n : Nat) (h : HostAgent) : (s.passed n h).Idle :=
  ⟨hs.busy, noReset_of_suffix hs.noReset (List.drop_suffix _ _)⟩

/-- A statement that makes no access takes one step on an idle block, in which the block stands still (log entry 8). -/
theorem step_noAccess {o : HostOp} (hs : s.Idle) (hp : s.host.prog = o :: prog) (ho : o.access = Access.none) :
    step s = .next (s.passed 1 (s.host.next 0x00#8)) := by
  have hwe : o.access.we = false := by rw [ho]; rfl
  rw [step_of_noWrite hp hwe, tick_idle hp hwe hs.busy hs.rst, ho, State.passed, List.drop_one]
  rfl

/-- The rest of a delay of `n` cycles takes `n` cycles and the one in which it ends (log entry 9). -/
theorem reaches_idleFor {n : Nat} (hs : s.Idle) (hp : s.host.prog = .idleFor n :: prog) :
    s.Reaches (s.passed (n + 1) { s.host with prog := prog }) := by
  induction n generalizing s with
  | zero =>
    have hend := State.Reaches.of_step (step_noAccess hs hp rfl)
    simpa only [HostAgent.next, hp] using hend
  | succ n ih =>
    have hstep := State.Reaches.of_step (step_noAccess hs hp rfl)
    simp only [HostAgent.next, hp] at hstep
    have hrest := ih (hs.passed 1 { s.host with prog := .idleFor n :: prog }) rfl
    rw [passed_passed, Nat.add_comm 1] at hrest
    exact hstep.trans hrest

/-- DELAY_US on an idle block passes its cycles and takes the statement off; the block stands still (R184, log
entry 9). -/
theorem reaches_delayUs {n : Nat} (hs : s.Idle) (hp : s.host.prog = .delayUs n :: prog) :
    s.Reaches (s.passed (n * Config.cyclesPerMicrosecond + 2) { s.host with prog := prog }) := by
  have hbegin := State.Reaches.of_step (step_noAccess hs hp rfl)
  simp only [HostAgent.next, hp] at hbegin
  have hrest := reaches_idleFor
    (hs.passed 1 { s.host with prog := .idleFor (n * Config.cyclesPerMicrosecond) :: prog }) rfl
  rw [passed_passed, Nat.add_comm 1] at hrest
  exact hbegin.trans hrest

/-- DO on an idle block, answered to its end (R99, R100). Unlike `steps_doOps` it asks for no answer to the WAITIDLE,
whose cycle may lie beyond the script. -/
theorem reaches_doOps {i : Instr} {e0 : EnvCycle} {es rest : List EnvCycle} (hs : s.Idle)
    (hp : s.host.prog = doOps i ++ prog) (he : s.env = e0 :: (es ++ rest)) (ha : answered (unrolled i) es = true) :
    ∃ t, s.Reaches t ∧ t.Idle ∧ s.CommandEnd t i es rest.tail ∧ t.host = { s.host with prog := prog } := by
  obtain ⟨t, ht, hend, hhost⟩ := exec_commandEnd (s := { s with host := { s.host with prog := .waitIdle :: prog } })
    rfl hs.busy hs.noReset he ha
  have hstep : step s = .next t := (step_of_issued hp (decodeCommand_encode i)).trans ht
  have hrt : t.noReset = true := noReset_of_suffix hs.noReset (by rw [hend.env, he]; exact ⟨e0 :: es, rfl⟩)
  have hwait := step_waitIdle (s := t) (by rw [hhost]) hend.busy (rst_of_noReset hrt)
  refine ⟨_, (State.Reaches.of_step hstep).trans (.of_step hwait),
    ⟨hend.busy, noReset_of_suffix hrt (List.tail_suffix _)⟩, ?_, by rw [hhost]⟩
  exact { hend with env := by rw [hend.env] }

/-- WRITEB on an idle block, answered to its end: the value read last shows the acknowledgment (R99, R101), the block
is idle again and SCAN's memory is untouched. -/
theorem reaches_writeB {v : Byte} {x e0 w r : EnvCycle} {es rest : List EnvCycle} (hs : s.Idle)
    (hp : s.host.prog = writeBOps v ++ prog) (he : s.env = x :: e0 :: (es ++ w :: r :: rest))
    (ha : answered (unrolled .write) es = true) :
    ∃ t, s.Reaches t ∧ t.Idle ∧ t.blk.txdata = v ∧ t.env = rest ∧ t.host.prog = prog ∧
      t.host.scan = s.host.scan ∧ t.host.lastAck = t.blk.ack ∧
      dataSamples (unrolled .write) es = [!t.blk.ack] := by
  have hload := step_wr_txdata hp hs.busy hs.rst
  obtain ⟨t, hdo, ht, hend, hhost⟩ := reaches_doOps (i := .write) (prog := .rd .status :: prog)
    (s := { s with
      blk := { s.blk with txdata := v }
      env := s.env.tail
      host := { s.host with prog := doOps .write ++ .rd .status :: prog }
      cycle := s.cycle + 1 })
    ⟨hs.busy, noReset_of_suffix hs.noReset (List.tail_suffix _)⟩ rfl (by rw [he]; rfl) ha
  have hread := step_rd (s := t) (by rw [hhost]) ht.busy ht.rst
  refine ⟨_, ((State.Reaches.of_step hload).trans hdo).trans (.of_step hread),
    ⟨ht.busy, noReset_of_suffix ht.noReset (List.tail_suffix _)⟩, hend.txdata, by rw [hend.env]; rfl, rfl,
    by rw [hhost], statusByte_bit1 _ _ _, ?_⟩
  rw [hend.ack]
  exact dataSamples_write _ ha

end Statements

/-- Settles O52: the first statement makes no access, and 8 is a candidate. -/
theorem scanStartsAtFirstCandidate : Obligations.ScanStartsAtFirstCandidate := by
  unfold Obligations.ScanStartsAtFirstCandidate
  intro s buf cap prog hp
  refine ⟨tick s, step_of_noWrite hp rfl, ?_, fun hr hb => by rw [tick_idle hp rfl hb hr]⟩
  simp only [tick_host, HostAgent.next, hp]
  rfl

section Probe

variable {s : State} {buf cap a : Nat} {prog : List HostOp}

/-- Between probes, the last of which was of address `a`, both lines are released (R184). -/
structure Block.Probed (b : Block) (a : Nat) : Prop where
  txdata : b.txdata = probeByte a
  sclDrv : b.sclDrv = .released
  sdaDrv : b.sdaDrv = .released

/-- `t` is `s` after START, WRITE, STOP and the settle delay of the probe of `a`: the host is at the test, with the
acknowledgment of the probe and SCAN's memory untouched (R181, R184). -/
structure State.ProbeEnd (s t : State) (buf cap a : Nat) (prog : List HostOp) : Prop where
  idle : t.Idle
  probed : t.blk.Probed a
  prog : t.host.prog = .scanTest buf cap a :: prog
  scan : t.host.scan = s.host.scan
  ack : t.host.lastAck = t.blk.ack

/-- One probe, with its three commands answered to their end, uses up the answers to them, the cycle of the last
WAITIDLE and those of the settle delay. -/
theorem reaches_probeEnd {p0 e1 w1 x e2 w2 r e3 : EnvCycle} {es1 es2 es3 rest : List EnvCycle} (hs : s.Idle)
    (hp : s.host.prog = .scanProbe buf cap a :: prog)
    (he : s.env = p0 :: e1 :: (es1 ++ w1 :: x :: e2 :: (es2 ++ w2 :: r :: e3 :: (es3 ++ rest))))
    (h1 : answered (unrolled .start) es1 = true) (h2 : answered (unrolled .write) es2 = true)
    (h3 : answered (unrolled .stop) es3 = true) :
    ∃ t, s.Reaches t ∧ s.ProbeEnd t buf cap a prog ∧ dataSamples (unrolled .write) es2 = [!t.blk.ack] ∧
      t.env = rest.tail.drop (Config.settleMicroseconds * Config.cyclesPerMicrosecond + 2) := by
  have hunfold := State.Reaches.of_step (step_noAccess hs hp rfl)
  have hprog : (s.host.next 0x00#8) = { s.host with
      prog := doOps .start ++ (writeBOps (probeByte a) ++ (doOps .stop ++
        (.delayUs Config.settleMicroseconds :: .scanTest buf cap a :: prog))) } := by
    simp only [HostAgent.next, hp]
    rfl
  have hs1 := hs.passed 1 (s.host.next 0x00#8)
  obtain ⟨t2, hstart, hs2, hend2, hhost2⟩ :=
    reaches_doOps hs1 (by rw [hprog]; rfl) (by simp only [State.passed, he]; rfl) h1
  obtain ⟨t3, hwrite, hs3, htx3, henv3, hprog3, hscan3, hack3, hdata3⟩ :=
    reaches_writeB hs2 (by rw [hhost2]) hend2.env h2
  obtain ⟨t4, hstop, hs4, hend4, hhost4⟩ := reaches_doOps hs3 hprog3 henv3 h3
  have hdelay := reaches_delayUs hs4 (by rw [hhost4])
  have hack4 : t4.blk.ack = t3.blk.ack := hend4.ack
  refine ⟨_, ((hunfold.trans hstart).trans hwrite).trans (hstop.trans hdelay), ⟨hs4.passed _ _,
    ⟨hend4.txdata.trans htx3, hend4.sclDrv, hend4.sdaDrv⟩, rfl, ?_, ?_⟩, ?_, ?_⟩
  · show t4.host.scan = s.host.scan
    rw [hhost4, hscan3, hhost2, hprog]
    rfl
  · show { t4.host with prog := _ }.lastAck = t4.blk.ack
    rw [hhost4, hack4]
    exact hack3
  · show _ = [!t4.blk.ack]
    rw [hack4]
    exact hdata3
  · rw [State.passed, hend4.env]

end Probe

/-- Settles O51: the probe ends at its test. -/
theorem scanProbeRound : Obligations.ScanProbeRound := by
  unfold Obligations.ScanProbeRound
  intro s buf cap a prog p0 e1 w1 x e2 w2 r e3 es1 es2 es3 rest hp hb hr he h1 h2 h3
  obtain ⟨t, ⟨n, hn⟩, ⟨hidle, ⟨htx, hscl, hsda⟩, hprog, hscan, hack⟩, hdata, -⟩ :=
    reaches_probeEnd ⟨hb, hr⟩ hp he h1 h2 h3
  exact ⟨n, t, t.blk.ack, hn, hprog, hdata, hack, rfl, hscan, hidle.busy, htx, hscl, hsda⟩

end Sys2Proof.Machine

/-! PROOFS. A whole SCAN on the machine (R181 to R184): one round of it, how many rounds it takes, and its end. -/

namespace Sys2Proof.Machine

section Rounds

variable {r : ScanRound} {rounds : List ScanRound} {rest : List EnvCycle}

/-- The answers of a round as a probe takes them, with the one to the test at the end. -/
theorem script_append (r : ScanRound) (rest : List EnvCycle) :
    r.script ++ rest =
      r.probe :: r.startIssue :: (r.start ++ r.startIdle :: r.address :: r.writeIssue ::
        (r.write ++ r.writeIdle :: r.statusRead :: r.stopIssue ::
          (r.stop ++ (r.stopIdle :: (r.settle ++ r.test :: rest))))) := by
  simp [ScanRound.script]

/-- What it is for a round to be complete (R181, R184). -/
theorem ScanRound.complete_iff :
    r.complete = true ↔
      answered (unrolled .start) r.start = true ∧ answered (unrolled .write) r.write = true ∧
        answered (unrolled .stop) r.stop = true ∧
        r.settle.length = Config.settleMicroseconds * Config.cyclesPerMicrosecond + 2 := by
  simp [ScanRound.complete, and_assoc]

/-- The number of rounds SCAN goes through, with `n` devices found before them (R182). -/
def roundsUsed (cap : Nat) : Nat → List ScanRound → Nat
  | _, [] => 0
  | n, r :: rounds => if scanOver r.ack cap n then 1 else roundsUsed cap (n + r.ack.toNat) rounds + 1

theorem roundsUsed_le (cap n : Nat) (rounds : List ScanRound) : roundsUsed cap n rounds ≤ rounds.length := by
  induction rounds generalizing n with
  | nil => exact Nat.le_refl 0
  | cons r rounds ih =>
    rw [roundsUsed]
    split
    · exact Nat.succ_pos _
    · exact Nat.succ_le_succ (ih _)

/-- The loop goes on only while there is room, which for capacity 0 means until the first device (R182, D18). -/
theorem not_scanOver_iff {ack : Bool} {cap n : Nat} (hn : n < max cap 1) :
    scanOver ack cap n = false ↔ n + ack.toNat < max cap 1 := by
  cases ack with
  | false => simpa [scanOver] using hn
  | true => simp only [scanOver, Bool.true_and, decide_eq_false_iff_not, Bool.toNat_true]; omega

/-- Devices found in a first round and in those after it. -/
theorem add_countP_cons (n : Nat) (r : ScanRound) (rounds : List ScanRound) :
    n + (r :: rounds).countP ScanRound.ack = n + r.ack.toNat + rounds.countP ScanRound.ack := by
  rw [List.countP_cons]
  cases r.ack with
  | false => rfl
  | true => simp only [if_true, Bool.toNat_true]; omega

/-- Before each of the rounds used there was room (R182). -/
theorem room_of_lt_roundsUsed {cap n j : Nat} (hn : n < max cap 1) (hj : j < roundsUsed cap n rounds) :
    n + (rounds.take j).countP ScanRound.ack < max cap 1 := by
  induction rounds generalizing n j with
  | nil => exact absurd hj (Nat.not_lt_zero j)
  | cons r rounds ih =>
    cases j with
    | zero => exact hn
    | succ j =>
      rw [roundsUsed] at hj
      cases hover : scanOver r.ack cap n with
      | true => simp [hover] at hj
      | false =>
        rw [List.take_succ_cons, add_countP_cons]
        exact ih ((not_scanOver_iff hn).1 hover) (by simpa [hover] using hj)

/-- SCAN goes through all rounds, or to the one that leaves no room (R182). -/
theorem roundsUsed_reaches {cap n : Nat} (hn : n < max cap 1) :
    roundsUsed cap n rounds = rounds.length ∨
      max cap 1 ≤ n + (rounds.take (roundsUsed cap n rounds)).countP ScanRound.ack := by
  induction rounds generalizing n with
  | nil => exact .inl rfl
  | cons r rounds ih =>
    rw [roundsUsed]
    cases hover : scanOver r.ack cap n with
    | true =>
      have hfull : ¬ n + r.ack.toNat < max cap 1 := fun h => by
        simp [(not_scanOver_iff hn).2 h] at hover
      right
      rw [if_pos rfl, List.take_succ_cons, add_countP_cons, List.take_zero]
      exact Nat.not_lt.1 hfull
    | false =>
      rw [if_neg Bool.false_ne_true, List.take_succ_cons, add_countP_cons, List.length_cons]
      exact (ih ((not_scanOver_iff hn).1 hover)).imp_left (congrArg (· + 1))

end Rounds

section Run

variable {s : State} {buf cap a : Nat} {prog : List HostOp} {rest : List EnvCycle}

/-- A complete round with its test: the host goes on or leaves the loop, and SCAN's memory is that after the test of
the round's acknowledgment (R181, R182, R185). -/
theorem reaches_round {r : ScanRound} (hs : s.Idle) (hp : s.host.prog = .scanProbe buf cap a :: prog)
    (he : s.env = r.script ++ rest) (hr : r.complete = true) :
    ∃ t, s.Reaches t ∧ t.Idle ∧ t.blk.Probed a ∧ t.env = rest ∧
      t.host.scan = s.host.scan.tested r.ack buf cap a ∧
      t.host.prog = (if scanOver r.ack cap s.host.scan.count then [] else scanFrom buf cap (a + 1)) ++ prog := by
  obtain ⟨hstart, hwrite, hstop, hsettle⟩ := ScanRound.complete_iff.1 hr
  rw [script_append] at he
  obtain ⟨t, hprobe, hend, hdata, henv⟩ := reaches_probeEnd hs hp he hstart hwrite hstop
  have hack : t.host.lastAck = r.ack := by
    rw [hend.ack, ScanRound.ack, hdata]
    cases t.blk.ack <;> rfl
  have htest := State.Reaches.of_step (step_noAccess hend.idle hend.prog rfl)
  rw [next_scanTest buf cap a hend.prog, hack, hend.scan] at htest
  refine ⟨_, hprobe.trans htest, hend.idle.passed _ _, hend.probed, ?_, rfl, rfl⟩
  rw [State.passed, henv, List.tail_cons, ← hsettle, List.drop_left]
  rfl

/-- `t` is `s`, whose SCAN stood before address `a`, after `k` rounds from there, at the end of SCAN: the block is idle,
and since a round, if there was one, its lines are released. -/
structure State.ScanEnd (s t : State) (a k : Nat) (prog : List HostOp) (env : List EnvCycle) (m : ScanMemory) :
    Prop where
  idle : t.Idle
  prog : t.host.prog = prog
  env : t.env = env
  scan : t.host.scan = m
  blk : k = 0 ∧ t.blk = s.blk ∨ t.blk.Probed (a + k - 1)

/-- SCAN's loop from address `a` on, with answers laid out for a round of each candidate left, runs as `scanLoop` says
for the devices that answer. -/
theorem reaches_scanEnd {answers : DeviceAddress → Bool} {rounds : List ScanRound} (hs : s.Idle)
    (hp : s.host.prog = scanFrom buf cap a ++ prog) (he : s.env = rounds.flatMap ScanRound.script ++ rest)
    (ha : a + rounds.length = 120) (hr : ∀ r ∈ rounds, r.complete = true)
    (hack : ∀ j (h : j < rounds.length), rounds[j].ack = answers (BitVec.ofNat 7 (a + j))) :
    ∃ t, s.Reaches t ∧
      s.ScanEnd t a (roundsUsed cap s.host.scan.count rounds) prog
        ((rounds.drop (roundsUsed cap s.host.scan.count rounds)).flatMap ScanRound.script ++ rest)
        (scanLoop answers buf cap (List.range' a rounds.length) s.host.scan) := by
  induction rounds generalizing s a with
  | nil =>
    rw [scanFrom_of_gt buf cap (by rw [List.length_nil] at ha; omega)] at hp
    exact ⟨s, .refl s, hs, hp, he, rfl, .inl ⟨rfl, rfl⟩⟩
  | cons r rounds ih =>
    rw [List.length_cons] at ha
    rw [scanFrom_of_le buf cap (by omega)] at hp
    rw [List.flatMap_cons, List.append_assoc] at he
    obtain ⟨t, hround, ht, hprobed, henv, hscan, hprog⟩ := reaches_round hs hp he (hr r List.mem_cons_self)
    rw [List.length_cons, List.range'_succ, scanLoop_cons answers buf cap a _ _ (hack 0 (Nat.succ_pos _)), roundsUsed]
    rw [List.getElem_cons_zero]
    cases hover : scanOver r.ack cap s.host.scan.count with
    | true =>
      rw [hover] at hprog
      exact ⟨t, hround, ht, hprog, henv, hscan, .inr hprobed⟩
    | false =>
      rw [hover] at hprog
      have hack' : ∀ j (h : j < rounds.length), rounds[j].ack = answers (BitVec.ofNat 7 (a + 1 + j)) := fun j hj => by
        rw [Nat.add_assoc, Nat.add_comm 1 j]
        exact hack (j + 1) (Nat.succ_lt_succ hj)
      obtain ⟨u, hrest, hend⟩ := ih ht hprog henv (by omega) (fun r' h => hr r' (List.mem_cons_of_mem r h)) hack'
      rw [hscan, tested_count] at hend
      generalize roundsUsed cap (s.host.scan.count + r.ack.toNat) rounds = k at hend
      refine ⟨u, hround.trans hrest, hend.idle, hend.prog, hend.env, hend.scan, .inr ?_⟩
      rw [if_neg Bool.false_ne_true]
      rcases hend.blk with ⟨rfl, hblk⟩ | hblk
      · rwa [hblk]
      · rwa [show a + 1 + k - 1 = a + (k + 1) - 1 by omega] at hblk

end Run

/-- Settles O53: SCAN starts at address 8 with nothing found, and its loop runs to its end from there; there is a first
round, since nothing found leaves room. -/
theorem scanRunGivesScanResult : Obligations.ScanRunGivesScanResult := by
  unfold Obligations.ScanRunGivesScanResult
  intro s buf cap prog e rounds rest answers hp hb hr he hlen hcomplete hack
  have hs : s.Idle := ⟨hb, hr⟩
  have hstart := State.Reaches.of_step (step_noAccess hs hp rfl)
  have hnext : s.host.next 0x00#8 =
      { s.host with prog := scanFrom buf cap 8 ++ prog, scan := s.host.scan.start } := by
    simp only [HostAgent.next, hp]
    rfl
  obtain ⟨t, hrun, hend⟩ := reaches_scanEnd (rounds := rounds) (rest := rest) (a := 8) (answers := answers)
    (hs.passed 1 (s.host.next 0x00#8)) (by rw [hnext]; rfl) (by rw [State.passed, he]; rfl) (by rw [hlen])
    (List.all_eq_true.1 hcomplete) hack
  have hscan : (s.passed 1 (s.host.next 0x00#8)).host.scan = s.host.scan.start := by rw [hnext]; rfl
  rw [hscan, start_count, hlen, ← scanCandidates_eq] at hend
  have hroom : 0 < max cap 1 := by omega
  have hle := roundsUsed_le cap 0 rounds
  have hbefore : ∀ j, j < roundsUsed cap 0 rounds → (rounds.take j).countP ScanRound.ack < max cap 1 :=
    fun j hj => by simpa only [Nat.zero_add] using room_of_lt_roundsUsed hroom hj
  have hlast := roundsUsed_reaches (rounds := rounds) hroom
  rw [Nat.zero_add] at hlast
  generalize roundsUsed cap 0 rounds = k at hend hle hbefore hlast
  have hprobed : t.blk.Probed (7 + k) := by
    rcases hend.blk with ⟨rfl, -⟩ | hblk
    · rw [List.take_zero, List.countP_nil] at hlast
      omega
    · rwa [show 8 + k - 1 = 7 + k by omega] at hblk
  obtain ⟨n, hn⟩ := hstart.trans hrun
  exact ⟨n, t, k, hn, hend.prog, hend.scan, hend.env, hlen ▸ hle, hbefore, hlen ▸ hlast, hend.idle.busy,
    hprobed.sclDrv, hprobed.sdaDrv, hprobed.txdata.trans (probeByte_eq_addressByte (by omega))⟩

end Sys2Proof.Machine

/-! PROOFS. A step in cycles (R209, R230): a command is the cycle of its issue and then cycles while the block is busy,
so every step is a whole number of cycles, and with one answer at most it is one. -/

namespace Sys2Proof.Machine

section Step

variable {s : State} {v : Byte} {rest : List HostOp} {i : Instr}

/-- A run while busy is a number of cycles, at most one an answer. -/
theorem runWhileBusy_eq_ticks (es : List EnvCycle) (s : State) :
    ∃ n, n ≤ es.length ∧ runWhileBusy es s = ticks n s := by
  induction es generalizing s with
  | nil => exact ⟨0, le_rfl, rfl⟩
  | cons e es ih =>
    cases hb : s.blk.busy with
    | false => exact ⟨0, Nat.zero_le _, runWhileBusy_idle _ hb⟩
    | true =>
      obtain ⟨n, hn, hrun⟩ := ih (tick s)
      exact ⟨n + 1, Nat.succ_le_succ hn, (runWhileBusy_cons e es hb).trans hrun⟩

/-- A command is its issue cycle and a number of cycles after it, at most one for each answer that is left. -/
theorem runCommand_eq_ticks (i : Instr) (f : Block → Block) (s : State) :
    ∃ n, n ≤ s.env.length - 1 ∧ runCommand i f s = ticks n (issueCycle i f s) := by
  cases hb : s.blk.busy with
  | true => exact ⟨0, Nat.zero_le _, runCommand_busy i f hb⟩
  | false =>
    obtain ⟨n, hn, hrun⟩ := runWhileBusy_eq_ticks (issueCycle i f s).env (issueCycle i f s)
    refine ⟨n, hn.trans_eq List.length_tail, ?_⟩
    simpa [runCommand, hb] using hrun

/-- The issue of the command a host's statement writes to CMD is the cycle of that statement (R65, R98). -/
theorem issueCycle_eq_tick (hp : s.host.prog = .wr .cmd v :: rest) (hv : decodeCommand v = some i) :
    issueCycle i (acceptCommand i) { s with host := { s.host with prog := rest } } = tick s := by
  obtain rfl := encode_of_decodeCommand v hv
  have haccess : s.host.access = issueAccess i := by rw [HostAgent.access, hp]; rfl
  have hnext : ∀ r, s.host.next r = { s.host with prog := rest } := fun r => by rw [HostAgent.next, hp]
  rw [issueCycle_eq_cycleWith, tick, haccess, hnext]
  rfl

/-- A step is one cycle and at most one more for each answer of the script after the first. -/
theorem step_eq_ticks (s : State) : ∃ n, n ≤ s.env.length - 1 ∧ step s = .next (ticks (n + 1) s) := by
  obtain ⟨t, ht⟩ := step_total s
  rw [ht]
  rcases step_cases ht with rfl | ⟨v, rest, i, hp, hv, rfl⟩
  · exact ⟨0, Nat.zero_le _, rfl⟩
  · obtain ⟨n, hn, hrun⟩ := runCommand_eq_ticks i (acceptCommand i) { s with host := { s.host with prog := rest } }
    rw [issueCycle_eq_tick hp hv] at hrun
    exact ⟨n, hn, congrArg _ hrun⟩

end Step

/-- Settles O6: the cycles of a step, of which the first is always there. -/
theorem stepIsWholeCycles : Obligations.StepIsWholeCycles := by
  unfold Obligations.StepIsWholeCycles
  intro s
  obtain ⟨n, -, hstep⟩ := step_eq_ticks s
  exact ⟨n + 1, Nat.le_add_left 1 n, hstep⟩

/-- Settles O5: one answer leaves none for a cycle after the first. -/
theorem stepOnOneAnswerIsOneCycle : Obligations.StepOnOneAnswerIsOneCycle := by
  unfold Obligations.StepOnOneAnswerIsOneCycle
  intro s hlen
  obtain ⟨n, hn, hstep⟩ := step_eq_ticks s
  obtain rfl : n = 0 := by omega
  exact hstep

/-- Settles O32: ready is idle and without reset in the issue cycle, which is what the run of the operation level
asks for. -/
theorem cycleLevelMeetsOperationLevel : Obligations.CycleLevelMeetsOperationLevel := by
  unfold Obligations.CycleLevelMeetsOperationLevel
  intro i s e0 es rest hready he ha
  obtain ⟨hb, hr⟩ := ready_iff.1 hready
  rw [envNow_cons s e0 _ he] at hr
  exact exec_meets_operation i hb hr he ha

end Sys2Proof.Machine

/-! PROOFS. The sequencer seen from outside: what a write to CMD does (R204) and the outputs of a cycle (R208). -/

namespace Sys2Proof.Machine

section Command

variable {b : Block} {i : Input}

/-- A write to CMD on an idle block acts on the block as it is, for the sequencer does nothing (R200, R204). -/
theorem blockStep_command_idle (hr : i.rst = false) (hw : i.regWe = true) (ha : i.regAddr = .cmd)
    (hb : b.busy = false) : blockStep b i = commandIssue b b i.regWdata := by
  rw [blockStep_write b i hr hw, sequencer_idle _ _ _ _ hb, ha, registerWrite]

/-- The byte of the command `c` written to CMD on an idle block is accepted (R204). -/
theorem blockStep_command_accepted {c : Instr} (hr : i.rst = false) (hw : i.regWe = true) (ha : i.regAddr = .cmd)
    (hb : b.busy = false) (hv : i.regWdata = encode c) : blockStep b i = acceptCommand c b := by
  rw [blockStep_command_idle hr hw ha hb, hv]
  exact commandIssue_legal b b _ hb (decodeCommand_encode c)

end Command

/-- Settles O11: a busy block and an illegal byte make a rejection; each legal byte on an idle block is the encoding of
a command, which is accepted. -/
theorem acceptanceLoadsPosition : Obligations.AcceptanceLoadsPosition := by
  unfold Obligations.AcceptanceLoadsPosition
  intro b i hr hw ha
  have accepted (c : Instr) (hb : b.busy = false) (hv : i.regWdata = encode c) : blockStep b i = acceptCommand c b :=
    blockStep_command_accepted hr hw ha hb hv
  refine ⟨fun hb => ?_, fun hb hv => ?_, fun hb hv => ?_, fun hb hv => ?_, fun hb hv => ?_, fun hb hv => ?_⟩
  · rw [blockStep_write b i hr hw, blockStep_noWrite b { i with regWe := false } hr rfl, ha]
    exact commandIssue_busy b _ _ hb
  · rw [blockStep_command_idle hr hw ha hb]
    exact commandIssue_illegal b b _ hv
  · exact accepted .nop hb hv
  · simp only [List.mem_cons, List.not_mem_nil, or_false] at hv
    rcases hv with hv | hv | hv
    · rw [accepted .begin hb hv, hv]; rfl
    · rw [accepted .start hb hv, hv]; rfl
    · rw [accepted .stop hb hv, hv]; rfl
  · exact accepted .write hb hv
  · simp only [List.mem_cons, List.not_mem_nil, or_false] at hv
    rcases hv with hv | hv
    · rw [accepted (.read false) hb hv, hv]; rfl
    · rw [accepted (.read true) hb hv, hv]; rfl

/-- Settles O14: three outputs are the state bits; `dly_req` is 1 while a WAIT is current, and the list is the places
of WAIT in R202, read off for every OP and USTEP. -/
theorem outputsFollowState : Obligations.OutputsFollowState := by
  unfold Obligations.OutputsFollowState
  intro b i
  refine ⟨rfl, rfl, rfl, dlyReq_iff.trans (current_eq_some.trans (and_congr_right fun _ => ?_))⟩
  generalize b.op = op
  generalize b.ustep = k
  revert op k
  decide

end Sys2Proof.Machine

/-! PROOFS. A rejected command write (R232): the cycle is the one the block would have had without the write, but for
CMDERR; and how long CMDERR stays (R33). -/

namespace Sys2Proof.Machine

section Rejection

variable {b : Block} {a : Access} {e : EnvCycle}

/-- Without a write the block's cycle is the sequencer's (R209). -/
theorem blockStep_noAccess (hr : e.rst = false) :
    blockStep b (inputOf Access.none e) = sequencer b e.sclLevel e.sdaLevel e.dlyDone :=
  blockStep_noWrite b (inputOf Access.none e) hr rfl

/-- A rejected write leaves the block as the cycle without it would, with CMDERR set (R204, R232). -/
theorem blockStep_rejected (hr : e.rst = false) (hw : a.we = true) (ha : a.reg = .cmd)
    (hrej : b.busy = true ∨ decodeCommand a.wdata = none) :
    blockStep b (inputOf a e) = (blockStep b (inputOf Access.none e)).rejectCommand := by
  rw [blockStep_write b (inputOf a e) hr hw, blockStep_noAccess hr, inputOf_regAddr, ha, inputOf_regWdata]
  exact hrej.elim (commandIssue_busy b _ _) (commandIssue_illegal b _ _)

/-- A rejected write leaves the events of the cycle as they are, for CMDERR has no part in `dly_req` (R131, R232). -/
theorem cycleEvents_rejected (hr : e.rst = false) (hw : a.we = true) (ha : a.reg = .cmd)
    (hrej : b.busy = true ∨ decodeCommand a.wdata = none) :
    cycleEvents b (inputOf a e) = cycleEvents b (inputOf Access.none e) := by
  simp only [cycleEvents, blockStep_rejected hr hw ha hrej]
  rfl

/-- A cycle of an idle block without reset and without an access changes nothing (R200). -/
theorem blockStep_noAccess_idle (hr : e.rst = false) (hb : b.busy = false) :
    blockStep b (inputOf Access.none e) = b :=
  (blockStep_noAccess hr).trans (sequencer_idle b _ _ _ hb)

/-- An idle block makes no event (R131, R200). -/
theorem cycleEvents_idle (i : Input) (hb : b.busy = false) : cycleEvents b i = [] := by
  simp [cycleEvents, current_of_idle b hb]

end Rejection

/-- An illegal byte written to CMD is no command: its step is one clock cycle (R95). -/
theorem step_of_illegal {s : State} {v : Byte} {rest : List HostOp} (hp : s.host.prog = .wr .cmd v :: rest)
    (hv : decodeCommand v = none) : step s = .next (tick s) := by
  refine step_of_not_issued fun v' rest' hp' => ?_
  obtain ⟨rfl, -⟩ : v = v' ∧ rest = rest' := by simpa [hp] using hp'
  exact hv

/-- CMDERR stays set in a cycle without reset that does not write 1 to bit 6 of STATUS (R33, R232). -/
theorem cmderr_persists {b : Block} {i : Input} (hc : b.cmderr = true) (hr : i.rst = false)
    (hno : ¬(i.regWe = true ∧ i.regAddr = .status ∧ i.regWdata.getLsbD 6 = true)) :
    (blockStep b i).cmderr = true := by
  obtain ⟨-, -, -, hnext, -⟩ := resultAndFlagUpdates b i hr
  rw [hnext, if_neg hno, hc, ite_self]

/-- Settles O12: both causes make the same rejection, the first in the cycle that issues the command, the second in
the cycle of the host's statement; CMDERR by its formula; and an acceptance does not look at CMDERR. -/
theorem rejectedCommandSetsCmderr : Obligations.RejectedCommandSetsCmderr := by
  unfold Obligations.RejectedCommandSetsCmderr
  refine ⟨fun i s hb hr => ?_, fun s v rest hp hv hr => ?_, fun b i hc hr hno => cmderr_persists hc hr hno,
    fun b i c hc hb hr hw ha hv hne => ?_⟩
  · refine ⟨_, exec_eq_runCommand i s, ?_⟩
    rw [runCommand_busy i _ hb, issueCycle_eq_cycleWith]
    refine ⟨blockStep_rejected hr rfl rfl (.inl hb), rfl, rfl, ?_⟩
    rw [cycleWith_events, cycleEvents_rejected hr rfl rfl (.inl hb)]
  · have haccess : s.host.access = { we := true, reg := .cmd, wdata := v } := by rw [HostAgent.access, hp]; rfl
    have hblk : (tick s).blk = (blockStep s.blk (inputOf Access.none s.envNow)).rejectCommand := by
      rw [tick_blk, haccess]
      exact blockStep_rejected hr rfl rfl (.inr hv)
    refine ⟨tick s, step_of_illegal hp hv, hblk, fun hb => ⟨?_, ?_⟩⟩
    · rw [hblk, blockStep_noAccess_idle hr hb]
      rfl
    · rw [tick_events, cycleEvents_idle _ hb, List.append_nil]
  · rw [blockStep_command_idle hr hw ha hb, commandIssue_legal b b _ hb hv]
    exact ⟨busy_acceptCommand hne b, (acceptCommand_cmderr b c).trans hc⟩

end Sys2Proof.Machine

/-! PROOFS. The block right after reset, and what it shows on its outputs (R251). -/

namespace Sys2Proof.Machine

/-- An idle block asks for no wait (R200, R208). -/
theorem dlyReq_of_idle {b : Block} (hb : b.busy = false) : b.dlyReq = false := by
  rw [Block.dlyReq, current_of_idle b hb]
  rfl

/-- An idle block that has released both lines drives no output but the read data (R208). -/
theorem outputs_of_idle_released {b : Block} (i : Input) (hb : b.busy = false) (hscl : b.sclDrv = .released)
    (hsda : b.sdaDrv = .released) :
    outputs b i =
      { regRdata := memRead b i.sclLevel i.sdaLevel i.regAddr, busy := false, sclDriveLow := false,
        sdaDriveLow := false, dlyReq := false } := by
  rw [outputs, dlyReq_of_idle hb, hb, hscl, hsda]
  rfl

/-- STATUS of the reset block is `0b0000ss00`: the level of Data in bit 3, that of Clock in bit 2 (R66, R251). -/
theorem statusByte_reset (scl sda : Bool) :
    statusByte Block.reset scl sda = BitVec.ofNat 8 (8 * sda.toNat + 4 * scl.toNat) := by
  cases sda <;> cases scl <;> rfl

/-- Settles O7: the elements by the definition of reset; the outputs are those of an idle block with both lines
released, and the read of STATUS is its byte with the two live levels. -/
theorem resetStateValues : Obligations.ResetStateValues := by
  unfold Obligations.ResetStateValues
  refine ⟨rfl, fun i ha => ?_⟩
  have hread : memRead Block.reset i.sclLevel i.sdaLevel i.regAddr = statusByte Block.reset i.sclLevel i.sdaLevel := by
    rw [ha]
    rfl
  have hout := outputs_of_idle_released (b := Block.reset) i rfl rfl rfl
  rw [hread, statusByte_reset] at hout
  exact hout

end Sys2Proof.Machine
